-- ==== Sys2Proof/Word.lean ====
section
/-! DEFINITION. The words of framebuffer_controller: bytes, device addresses, character codes and the colour operand. -/

namespace Sys2Proof

/-- The only storage and bus unit (R27). -/
abbrev Byte := BitVec 8

/-- The document's `DeviceAddress`: opaque, passed unchanged to the transport (R33, R47). The block neither adds,
shifts nor masks it, so it is not a bit vector; its width `AW` is a well-formedness bound. -/
abbrev DeviceAddress := Nat

/-- A character code: an unsigned number that only indexes the font (R49). -/
abbrev CharCode := Nat

/-- The colour operand; it has exactly two values (R48). -/
inductive Color where
  | off
  | on
  deriving DecidableEq, Repr

end Sys2Proof
end

