-- ==== Sys2Proof/Config.lean ====
section
/-! DEFINITION. The configuration of one instance of the block: the build parameters of R6, and the one free value.
The reference values of the parameters stand in Decode.lean (`Build.reference`). -/

namespace Sys2Proof

/-- One initialization command: "its opcode followed by its operands" (R51), so never empty. -/
structure Command where
  opcode   : Byte
  operands : List Byte
  deriving DecidableEq, Repr

/-- A glyph: exactly 8 bytes, row 0 the top row (R81). -/
abbrev Glyph := Vector Byte 8

/-- The build parameters of R6: "fixed for one instance of the block". No step changes them.
`chunk` is positive by its type (D16: "`CHUNK = 0` is not a legal instance"); `initSeq` has its 17 entries by its type
(R51). `font` lists the codes that have a glyph; every other code has none, so the lookup is total (R81). -/
structure Build where
  coordWidth : Nat
  addrWidth  : Nat
  charWidth  : Nat
  chunk      : PNat
  initSeq    : Vector Command 17
  font       : List (CharCode × Glyph)
  fbCapacity : Nat
  deriving DecidableEq, Repr

/-- FREE VALUE (log 5): the framebuffer's contents after an INIT that ended `TransportError`, which R60 leaves
unspecified. Applied to `State.draws`. It has no body: nothing can be proved of it. -/
opaque Config.freeFramebuffer : Nat → List Byte

end Sys2Proof
end

