-- ==== Sys2Proof/Syntax.lean ====
section
/-! DEFINITION. The instructions: one constructor per row of spec/opcode_table.json. -/

namespace Sys2Proof

/-- One constructor per row of the table. The first eight are requests the block accepts from the host (format HOSTOP,
R46, R50); the others are frames the block produces for the transport (formats FRAME and CMD, R42, R43, R52), which
the serializer executes one bus write at a time while an INIT or a SHOW is in progress. -/
inductive Instr where
  /-- INIT (R55) -/
  | init (width height : Int) (addr : DeviceAddress)
  /-- SET_PIXEL (R64) -/
  | setPixel (x y : Int) (color : Color)
  /-- FILL (R69) -/
  | fill (color : Color)
  /-- SHOW (R73) -/
  | showFb
  /-- DRAW_TEXT (R83) -/
  | drawText (string : List CharCode) (x y : Int) (color : Color)
  /-- RESERVED_101 (R50) -/
  | reserved101
  /-- RESERVED_110 (R50) -/
  | reserved110
  /-- RESERVED_111 (R50) -/
  | reserved111
  /-- CMD_FRAME (R42): any command frame that is none of the named rows below -/
  | cmdFrame (opcode : Byte) (operands : List Byte)
  /-- DATA_FRAME (R43) -/
  | dataFrame (payload : List Byte)
  /-- DISPLAY_OFF, entry 0 of the default INIT_SEQ (R52) -/
  | displayOff
  /-- SET_CLOCK_DIV, entry 1 -/
  | setClockDiv
  /-- SET_MULTIPLEX, entry 2 -/
  | setMultiplex
  /-- SET_DISPLAY_OFFSET, entry 3 -/
  | setDisplayOffset
  /-- SET_START_LINE, entry 4 -/
  | setStartLine
  /-- CHARGE_PUMP, entry 5 -/
  | chargePump
  /-- MEMORY_MODE, entry 6 -/
  | memoryMode
  /-- SEG_REMAP, entry 7 -/
  | segRemap
  /-- COM_SCAN_DEC, entry 8 -/
  | comScanDec
  /-- SET_COM_PINS, entry 9 -/
  | setComPins
  /-- SET_CONTRAST, entry 10 -/
  | setContrast
  /-- SET_PRECHARGE, entry 11 -/
  | setPrecharge
  /-- SET_VCOM_DESELECT, entry 12 -/
  | setVcomDeselect
  /-- DISPLAY_ALL_ON_RESUME, entry 13 -/
  | displayAllOnResume
  /-- NORMAL_DISPLAY, entry 14 -/
  | normalDisplay
  /-- DEACTIVATE_SCROLL, entry 15 -/
  | deactivateScroll
  /-- DISPLAY_ON, entry 16 -/
  | displayOn
  deriving DecidableEq, Repr

end Sys2Proof
end

