-- ==== Sys2Proof/Decode.lean ====
section
/-! DEFINITION. The two encodings of the block (30_encoding.md): the requests it accepts and the frames it produces;
the decoder, total on both, the encoder, and the table words of spec/opcode_table.json. -/

namespace Sys2Proof

/-! ## The frames' constants and the named commands -/

/-- `CTRL_CMD` (R6, R42, R44). -/
def ctrlCmd : Byte := 0x00

/-- `CTRL_DATA` (R6, R43, R44). -/
def ctrlData : Byte := 0x40

/-- The byte sequence of a command, opcode first (R51). -/
def Command.bytes (c : Command) : List Byte := c.opcode :: c.operands

/-- The 17 rows of format CMD, in the order of R51, with the bytes of R52 (PRESUMED by the spec itself: "from general
knowledge, not in source", G1; log 3). -/
def commandRows : List (Instr × Command) :=
  [(.displayOff, ⟨0xAE, []⟩), (.setClockDiv, ⟨0xD5, [0x80]⟩), (.setMultiplex, ⟨0xA8, [0x3F]⟩),
   (.setDisplayOffset, ⟨0xD3, [0x00]⟩), (.setStartLine, ⟨0x40, []⟩), (.chargePump, ⟨0x8D, [0x14]⟩)] ++
  [(.memoryMode, ⟨0x20, [0x00]⟩), (.segRemap, ⟨0xA1, []⟩), (.comScanDec, ⟨0xC8, []⟩),
   (.setComPins, ⟨0xDA, [0x12]⟩), (.setContrast, ⟨0x81, [0xCF]⟩), (.setPrecharge, ⟨0xD9, [0xF1]⟩)] ++
  [(.setVcomDeselect, ⟨0xDB, [0x40]⟩), (.displayAllOnResume, ⟨0xA4, []⟩), (.normalDisplay, ⟨0xA6, []⟩),
   (.deactivateScroll, ⟨0x2E, []⟩), (.displayOn, ⟨0xAF, []⟩)]

/-- The named row a command is, if it is one (log 18). -/
def commandRow (rows : List (Instr × Command)) (c : Command) : Option Instr :=
  match rows with
  | [] => none
  | (i, c') :: rest => if c' = c then some i else commandRow rest c

/-- The reference instance: the defaults of R6 and the default `INIT_SEQ` of R52. R6 gives `FONT` no default; the
table with no glyph stands here (DESIGN CHOICE, log 2). -/
def Build.reference : Build where
  coordWidth := 16
  addrWidth  := 7
  charWidth  := 8
  chunk      := 16
  initSeq    := #v[⟨0xAE, []⟩, ⟨0xD5, [0x80]⟩, ⟨0xA8, [0x3F]⟩, ⟨0xD3, [0x00]⟩, ⟨0x40, []⟩, ⟨0x8D, [0x14]⟩,
    ⟨0x20, [0x00]⟩, ⟨0xA1, []⟩, ⟨0xC8, []⟩, ⟨0xDA, [0x12]⟩, ⟨0x81, [0xCF]⟩, ⟨0xD9, [0xF1]⟩,
    ⟨0xDB, [0x40]⟩, ⟨0xA4, []⟩, ⟨0xA6, []⟩, ⟨0x2E, []⟩, ⟨0xAF, []⟩]
  font       := []
  fbCapacity := 1024

/-! ## What the block reads and writes on its two interfaces -/

/-- One request: the operation code and the operand inputs, each on its own input and none packed (R47). An input is
the number on its wires; the decoder reads it at the instance's width. Inputs the operation does not use are ignored. -/
structure Request where
  op     : BitVec 3
  width  : Nat := 0
  height : Nat := 0
  addr   : Nat := 0
  x      : Nat := 0
  y      : Nat := 0
  color  : BitVec 1 := 0
  string : List Nat := []
  deriving DecidableEq, Repr

/-- A code word: a request from the host, or the byte sequence of one bus write. -/
inductive Code where
  | request (r : Request)
  | frame (bytes : List Byte)
  deriving DecidableEq, Repr

/-- Why a byte sequence is no frame of the block. Raised by `decode`; safe (R44: the block never produces one). -/
inductive DecodeError where
  /-- a write with no control byte (R44) -/
  | noControlByte
  /-- "a write with a control byte and nothing after it" (R44) -/
  | controlByteAlone
  /-- a control byte other than 0x00 and 0x40 (R44) -/
  | reservedControlByte (b : Byte)
  /-- a data frame longer than `1 + CHUNK` (R43) -/
  | payloadTooLong (n : Nat)
  deriving DecidableEq, Repr

/-! ## Operand inputs (R47 to R49) -/

/-- A `CW`-bit operand read as a signed two's complement integer: the spec's `sext` (R47). -/
def readSigned (width input : Nat) : Int := (BitVec.ofNat width input).toInt

/-- The `CW`-bit two's complement pattern of an integer. -/
def writeSigned (width : Nat) (v : Int) : Nat := (BitVec.ofInt width v).toNat

/-- An unsigned input of `width` wires: an address (R47) or a character code (R49). -/
def readUnsigned (width input : Nat) : Nat := input % 2 ^ width

/-- `on = 1`, `off = 0` (R48). -/
def Color.bit : Color → BitVec 1
  | .off => 0
  | .on => 1

/-- The colour an input bit means (R48). -/
def Color.ofBit (b : BitVec 1) : Color := if b = 1 then .on else .off

/-! ## Decoder -/

/-- The operation a request selects (R46, R50); every 3-bit code is one of the eight rows. -/
def decodeRequest (b : Build) (r : Request) : Instr :=
  match r.op.toNat with
  | 0 => .init (readSigned b.coordWidth r.width) (readSigned b.coordWidth r.height) (readUnsigned b.addrWidth r.addr)
  | 1 => .setPixel (readSigned b.coordWidth r.x) (readSigned b.coordWidth r.y) (Color.ofBit r.color)
  | 2 => .fill (Color.ofBit r.color)
  | 3 => .showFb
  | 4 => .drawText (r.string.map (readUnsigned b.charWidth)) (readSigned b.coordWidth r.x)
      (readSigned b.coordWidth r.y) (Color.ofBit r.color)
  | 5 => .reserved101
  | 6 => .reserved110
  | _ => .reserved111

/-- The frame a byte sequence is (R42 to R45). -/
def decodeFrame (b : Build) (bytes : List Byte) : Except DecodeError Instr :=
  match bytes with
  | [] => .error .noControlByte
  | _ :: [] => .error .controlByteAlone
  | control :: first :: rest =>
    if control = ctrlCmd then .ok ((commandRow commandRows ⟨first, rest⟩).getD (.cmdFrame first rest))
    else if control = ctrlData then
      if rest.length + 1 ≤ b.chunk then .ok (.dataFrame (first :: rest))
      else .error (.payloadTooLong (rest.length + 1))
    else .error (.reservedControlByte control)

/-- The decoder: total on every request and every byte sequence. -/
def decode (b : Build) : Code → Except DecodeError Instr
  | .request r => .ok (decodeRequest b r)
  | .frame bytes => decodeFrame b bytes

/-! ## Encoder -/

/-- The command-framed write of a command (R42). -/
def Command.frame (c : Command) : List Byte := ctrlCmd :: c.bytes

/-- The code word of an instruction, from R46, R47 (requests), R42, R43 (frames) and R52 (named commands). -/
def encode (b : Build) : Instr → Code
  | .init w h a => .request { op := 0, width := writeSigned b.coordWidth w, height := writeSigned b.coordWidth h, addr := a }
  | .setPixel x y c => .request { op := 1, x := writeSigned b.coordWidth x, y := writeSigned b.coordWidth y, color := c.bit }
  | .fill c => .request { op := 2, color := c.bit }
  | .showFb => .request { op := 3 }
  | .drawText t x y c => .request
      { op := 4, string := t, x := writeSigned b.coordWidth x, y := writeSigned b.coordWidth y, color := c.bit }
  | .reserved101 => .request { op := 5 }
  | .reserved110 => .request { op := 6 }
  | .reserved111 => .request { op := 7 }
  | .cmdFrame o p => .frame (ctrlCmd :: o :: p)
  | .dataFrame p => .frame (ctrlData :: p)
  | .displayOff => .frame [0x00, 0xAE]
  | .setClockDiv => .frame [0x00, 0xD5, 0x80]
  | .setMultiplex => .frame [0x00, 0xA8, 0x3F]
  | .setDisplayOffset => .frame [0x00, 0xD3, 0x00]
  | .setStartLine => .frame [0x00, 0x40]
  | .chargePump => .frame [0x00, 0x8D, 0x14]
  | .memoryMode => .frame [0x00, 0x20, 0x00]
  | .segRemap => .frame [0x00, 0xA1]
  | .comScanDec => .frame [0x00, 0xC8]
  | .setComPins => .frame [0x00, 0xDA, 0x12]
  | .setContrast => .frame [0x00, 0x81, 0xCF]
  | .setPrecharge => .frame [0x00, 0xD9, 0xF1]
  | .setVcomDeselect => .frame [0x00, 0xDB, 0x40]
  | .displayAllOnResume => .frame [0x00, 0xA4]
  | .normalDisplay => .frame [0x00, 0xA6]
  | .deactivateScroll => .frame [0x00, 0x2E]
  | .displayOn => .frame [0x00, 0xAF]

/-! ## Words numbered as spec/opcode_table.json numbers them -/

/-- The `n` bytes of a number, most significant byte first: the table writes the bytes 00 AE as 0x00AE (log 11). -/
def tableBytes : Nat → Nat → List Byte
  | 0, _ => []
  | n + 1, w => BitVec.ofNat 8 (w >>> (8 * n)) :: tableBytes n w

/-- What a table word stands for. Up to 8 bits: a 3-bit operation code with every operand input zero (R46), or, from 8
on, a control byte followed by one zero byte; more bits: the bytes of a frame (log 11). -/
def tableCode (nbits w : Nat) : Code :=
  if nbits ≤ 8 then
    if w < 8 then .request { op := BitVec.ofNat 3 w } else .frame [BitVec.ofNat 8 w, 0x00]
  else .frame (tableBytes ((nbits + 7) / 8) w)

/-- The instruction the decoder of the reference instance reads from a table word. -/
def decodeTableWord (nbits w : Nat) : Option Instr :=
  match decode Build.reference (tableCode nbits w) with
  | .ok i => some i
  | .error _ => none

end Sys2Proof
end

