-- ==== Sys2Proof/Machine/State.lean ====
section
/-! DEFINITION. The state of framebuffer_controller as plain data (10_state.md), the reasons a step can stop, and the
state right after reset (R23, R104). -/

namespace Sys2Proof.Machine

/-- The configuration record (R13): written by a successful INIT only. -/
structure DisplayConfig where
  width  : Int
  height : Int
  addr   : DeviceAddress
  deriving DecidableEq, Repr

/-- The framebuffer (R10): its length and, of its bytes, those that differ from 0x00, by rising index. The one
canonical form is `Memory.wf` (Ops.lean). -/
structure Memory where
  size  : Nat
  cells : List Host.Cell
  deriving DecidableEq, Repr

/-- An operation in progress between two of its bus writes (R20): INIT with its operands and the index `k` of the next
entry of `INIT_SEQ`, or SHOW with the offset `o` of the next chunk. The other operations make no bus write and take
one step. -/
inductive Operation where
  | init (width height : Int) (addr : DeviceAddress) (k : Nat)
  | flush (o : Nat)
  deriving DecidableEq, Repr

/-- The transport's answer to one bus write (R37). -/
inductive Answer where
  | ok
  | transportError
  deriving DecidableEq, Repr

/-- One entry of the bus history `H` (R9). -/
structure BusRecord where
  addr   : DeviceAddress
  bytes  : List Byte
  answer : Answer
  deriving DecidableEq, Repr

/-- The two errors of the block; the set is closed (R93). -/
inductive BlockError where
  /-- raised by INIT: invalid width or height (R90) -/
  | configError
  /-- raised by INIT and SHOW: the transport failed a bus write (R91) -/
  | transportError
  deriving DecidableEq, Repr

/-- The result an operation ends with (R89). -/
inductive Result where
  | ok
  | error (e : BlockError)
  deriving DecidableEq, Repr

/-- Why a request was refused (the table of R102). A refused request has no result; the mark is the model's (log 6). -/
inductive RefusedRequest where
  /-- SET_PIXEL, FILL, SHOW or DRAW_TEXT while `cfg = none` (D9) -/
  | unconfigured
  /-- INIT while `cfg` is a record (D10, R61) -/
  | alreadyConfigured
  /-- operation code 101, 110 or 111 (D25, R50) -/
  | reservedCode (op : BitVec 3)
  /-- INIT with valid dimensions beyond `FB_CAPACITY` (D6) -/
  | overCapacity
  deriving DecidableEq, Repr

/-- What the host does in one step (R8): apply reset, issue a request, or nothing (log 9). -/
inductive HostEvent where
  | reset
  | request (r : Request)
  | quiet
  deriving DecidableEq, Repr

/-- The state. `cfg`, `fb` are the block's persistent state (R10), `op` its transient state (R20), `history` the bus
history `H` (R9), `held` the requests held at the interface, the oldest first (R108). The rest is the model's own: the
results returned to the one host (R9 (a), R99), the marks of refused requests (R102), what the host does in each coming step (`inbox`), what the transport
is still going to do (`answers`; an entry `none` is "not yet"), the build parameters of this instance (R6), and how many free
values were drawn (log 5). -/
structure State where
  cfg      : Option DisplayConfig
  fb       : Memory
  op       : Option Operation
  held     : List Request
  history  : List BusRecord
  results  : List Result
  refusals : List RefusedRequest
  inbox    : List HostEvent
  answers  : List (Option Answer)
  build    : Build
  draws    : Nat
  deriving DecidableEq, Repr

/-- Why the machine stops with a fault. -/
inductive Fault where
  /-- An index outside the framebuffer. Raised by SET_PIXEL and DRAW_TEXT through `Memory.read` and `Memory.write`;
  R30: "a model need give `MemRead` and `MemWrite` no meaning there". Safe; only in states outside the invariant. -/
  | framebufferBounds (index : Nat)
  deriving DecidableEq, Repr

/-- Why a step has no meaning. -/
inductive Refusal where
  /-- An instruction without a meaning yet: an arm of `exec`. Safe. -/
  | notModelled (mnemonic : String)
  /-- A frame instruction at a point where the block does not produce that frame (R42, R43, R44, R58). Raised by the
  frame instructions; safe: the step only ever forms the frame that is due. -/
  | frameNotDue
  /-- The bytes of the frame to send are no frame of the block. Raised by the step; safe, and only in states outside
  the invariant. -/
  | undecodable (e : DecodeError)
  deriving DecidableEq, Repr

/-- The state right after reset (R23, R104): unconfigured, no operation in progress, `H` empty. `fb` is the empty sequence
(R23 allows it; log 4); the model's own fields are empty and the instance is the reference one (log 2, log 16). -/
def State.reset : State where
  cfg      := none
  fb       := { size := 0, cells := [] }
  op       := none
  held     := []
  history  := []
  results  := []
  refusals := []
  inbox    := []
  answers  := []
  build    := Build.reference
  draws    := 0

end Sys2Proof.Machine
end

