-- ==== Sys2Proof/Machine/Flags.lean ====
section
/-! DEFINITION. The block has no flags, condition codes or sticky error bits (R17); its only status is the result each
operation returns. Here stand the 2-bit codes of R89. -/

namespace Sys2Proof.Machine

/-- The code of a result (R89; the codes are the spec's own, D8). Code 11 is no result of the hardware. -/
def Result.code : Result → BitVec 2
  | .ok => 0b00
  | .error .configError => 0b01
  | .error .transportError => 0b10

/-- "used by no rule; a model may use it to mark a *refused* request" (R89). -/
def refusedCode : BitVec 2 := 0b11

/-- The result that is reported for a transport's answer to the write that ended an operation (R91). -/
def Answer.result : Answer → Result
  | .ok => .ok
  | .transportError => .error .transportError

end Sys2Proof.Machine
end

