-- ==== Sys2Proof/Machine/Operands.lean ====
section
/-! DEFINITION. The operand forms: the dimensions of INIT, the page address generator, the colour's effect on a byte, and
the pixels a string stands for. All arithmetic is exact (R67). -/

namespace Sys2Proof.Machine

/-! ## Dimensions (R11, R56) -/

/-- INIT accepts exactly a positive multiple of 8 as height and a positive width (R56). -/
abbrev ValidDims (width height : Int) : Prop := 0 < height ∧ height % 8 = 0 ∧ 0 < width

/-- `(height / 8) * width`, the length of the framebuffer in bytes (R11, R67). -/
def fbLength (width height : Int) : Nat := (height / 8 * width).toNat

/-! ## Page address generator (R62) -/

/-- Where a pixel lives: its page, its bit in the byte, the byte's linear index. -/
structure PixelPlace where
  page  : Nat
  bit   : Nat
  index : Nat
  deriving DecidableEq, Repr

/-- PAG (R62): a pure function; division and remainder are taken only after the range test has passed. -/
def pag (x y width height : Int) : Option PixelPlace :=
  if 0 ≤ x ∧ x < width ∧ 0 ≤ y ∧ y < height then
    some { page := (y / 8).toNat, bit := (y % 8).toNat, index := (y / 8 * width + x).toNat }
  else none

/-! ## Colours on bytes -/

/-- `1 << bit` on 8 bits (R67). -/
def pixelMask (bit : Nat) : Byte := 1#8 <<< bit

/-- The byte SET_PIXEL writes back: `old | (1 << bit)` or `old & ~(1 << bit)` (R64). -/
def paintByte (color : Color) (bit : Nat) (old : Byte) : Byte :=
  match color with
  | .on => old ||| pixelMask bit
  | .off => old &&& ~~~(pixelMask bit)

/-- The uniform pattern of FILL: 0xFF for on, 0x00 for off (R69). -/
def fillByte : Color → Byte
  | .on => 0xFF
  | .off => 0x00

/-! ## Text (R81 to R85) -/

/-- `FONT`: total; `none` for a code without a glyph (R81). -/
def fontGlyph (b : Build) (c : CharCode) : Option Glyph := b.font.lookup c

/-- The pixels of a glyph drawn with its cell's origin at `(cx, y)`: one for each set bit, bit `j` of row `i` at
`(cx + j, y + i)`, rows 0 to 7 and in a row columns 0 to 7 (R82, R83). -/
def glyphPixels (g : Glyph) (cx y : Int) : List (Int × Int) :=
  (List.finRange 8).flatMap fun i =>
    List.map (fun j : Nat => (cx + (j : Int), y + (i.val : Int))) ((List.range 8).filter fun j => (g.get i).getLsbD j)

/-- The pixels DRAW_TEXT sets, in the order of its SET_PIXEL operations; the cursor advances by 8 after every
character, with or without a glyph (R83, R84, R85). -/
def textPixels (b : Build) : List CharCode → Int → Int → List (Int × Int)
  | [], _, _ => []
  | c :: rest, cx, y =>
    (match fontGlyph b c with
     | none => []
     | some g => glyphPixels g cx y) ++ textPixels b rest (cx + 8) y

end Sys2Proof.Machine
end

