-- ==== Sys2Proof/Machine/Ops.lean ====
section
/-! DEFINITION. The named operations over the framebuffer, the bus and the interface: memory read and write, the bus write
primitive, ending an operation with a result or an error, refusing a request, holding it, and reset. -/

namespace Sys2Proof.Machine

/-! ## The framebuffer as memory (20_memory.md) -/

/-- What an unlisted index below the length reads as: the 0x00 INIT leaves there (R57; log 15). -/
def blankByte : Byte := 0x00

/-- The byte a list of cells holds at an index. -/
def cellAt : List Host.Cell → Nat → Byte
  | [], _ => blankByte
  | (b, v) :: rest, a => if b = a then v else cellAt rest a

/-- Write one byte into a list of cells, keeping the canonical form. -/
def cellPut : List Host.Cell → Nat → Byte → List Host.Cell
  | [], a, v => if v = blankByte then [] else [(a, v)]
  | (b, w) :: rest, a, v =>
    if a < b then (if v = blankByte then (b, w) :: rest else (a, v) :: (b, w) :: rest)
    else if a = b then (if v = blankByte then rest else (a, v) :: rest)
    else (b, w) :: cellPut rest a v

/-- The cells of a byte sequence that starts at index `a`. -/
def cellsOf : Nat → List Byte → List Host.Cell
  | _, [] => []
  | a, v :: rest => if v = blankByte then cellsOf (a + 1) rest else (a, v) :: cellsOf (a + 1) rest

/-- Canonical cells: indices rising, from `lo` on, below `hi`, none holding the byte an unlisted index reads as. -/
def cellsWf (lo hi : Nat) : List Host.Cell → Bool
  | [] => true
  | (a, v) :: rest => decide (lo ≤ a) && decide (a < hi) && decide (v ≠ blankByte) && cellsWf (a + 1) hi rest

/-- The canonical form of a framebuffer. -/
def Memory.wf (m : Memory) : Bool := cellsWf 0 m.size m.cells

/-- `MemRead(i, 1)`: defined only for `i < len(fb)` (R30). -/
def Memory.read (m : Memory) (i : Nat) : Option Byte :=
  if i < m.size then some (cellAt m.cells i) else none

/-- `MemWrite(i, 1, v)`: defined only for `i < len(fb)` (R30). -/
def Memory.write (m : Memory) (i : Nat) (v : Byte) : Option Memory :=
  if i < m.size then some { m with cells := cellPut m.cells i v } else none

/-- The framebuffer that holds a byte sequence. -/
def Memory.ofBytes (l : List Byte) : Memory := { size := l.length, cells := cellsOf 0 l }

/-- `replicate(n, v)` (R57, R69). -/
def Memory.uniform (n : Nat) (v : Byte) : Memory := Memory.ofBytes (List.replicate n v)

/-- The framebuffer as the sequence of bytes of R10, index 0 first. -/
def Memory.bytes (m : Memory) : List Byte := (List.range m.size).map (cellAt m.cells)

/-- `fb[a:b)`. -/
def Memory.slice (m : Memory) (a b : Nat) : List Byte := (m.bytes.take b).drop a

/-- `Pixel(fb, x, y)` (R12): whether a pixel is on; a function for stating properties, no operation (R8). -/
def pixel (c : DisplayConfig) (m : Memory) (x y : Int) : Option Bool :=
  match pag x y c.width c.height with
  | none => none
  | some p => (m.read p.index).map fun b => b.getLsbD p.bit

/-- SET_PIXEL's effect on the framebuffer (R64): nothing outside the display, else the read-modify-write of one byte. The
error is the index, where it lies outside `fb` (R30). -/
def plot (c : DisplayConfig) (color : Color) (m : Memory) (x y : Int) : Except Nat Memory :=
  match pag x y c.width c.height with
  | none => .ok m
  | some p =>
    match m.read p.index with
    | none => .error p.index
    | some old =>
      match m.write p.index (paintByte color p.bit old) with
      | none => .error p.index
      | some m' => .ok m'

/-- A sequence of SET_PIXEL operations of one colour (R54, R83). -/
def plotAll (c : DisplayConfig) (color : Color) : Memory → List (Int × Int) → Except Nat Memory
  | m, [] => .ok m
  | m, (x, y) :: rest =>
    match plot c color m x y with
    | .error i => .error i
    | .ok m' => plotAll c color m' rest

/-! ## The bus (R37) -/

/-- The transport has answered a bus write: its answer is used up and the write stands in `H` (R37). -/
def State.answered (s : State) (rest : List (Option Answer)) (r : BusRecord) : State :=
  { s with answers := rest, history := s.history ++ [r] }

/-- `BusWrite(a, bytes)` (R37): one transport call. The transport's answer is its own: the next of `answers`. Answered
writes are recorded in `H`. Unanswered (`none`, or nothing left), the block waits (R112). -/
def State.busWrite (s : State) (a : DeviceAddress) (bytes : List Byte) : Option Answer × State :=
  match s.answers with
  | [] => (none, s)
  | none :: rest => (none, { s with answers := rest })
  | some r :: rest => (some r, s.answered rest ⟨a, bytes, r⟩)

/-- `DataStream(H)`: the payloads of the data frames, in order (R41). -/
def dataStream : List BusRecord → List Byte
  | [] => []
  | r :: rest =>
    match r.bytes with
    | c :: p => if c = ctrlData then p ++ dataStream rest else dataStream rest
    | [] => dataStream rest

/-- `CmdStream(H)`: the commands of the command frames, in order (R41). -/
def cmdStream : List BusRecord → List (List Byte)
  | [] => []
  | r :: rest =>
    match r.bytes with
    | c :: p => if c = ctrlCmd then p :: cmdStream rest else cmdStream rest
    | [] => cmdStream rest

/-! ## Ending an operation: results and errors (60_exceptions.md) -/

/-- An operation ends with its one result, returned to the one host, and is in progress no longer (R9, R89, R99): `results` is
the only place a result goes. -/
def State.endWith (s : State) (r : Result) : State := { s with op := none, results := s.results ++ [r] }

/-- The operation completed: `OK`. -/
def State.complete (s : State) : State := s.endWith .ok

/-- TAKING AN ERROR (R95, the analogue of trap entry): the operation ends at once, the error is its result; what was
done before stays, nothing is saved, no mode changes, no bit is left set. There is one level and no delegation: every error, of
INIT and of SHOW, goes this one way, to the one host (R99). -/
def State.raise (s : State) (e : BlockError) : State := s.endWith (.error e)

/-- RETURN (R96, the analogue of trap return): "There is no return instruction and nothing to restore. After any result
the block is ready for the next operation". -/
def State.ready (s : State) : Bool := s.op.isNone

/-- A refused request (R102): no state of the block changes, no bus write, no result; the run is marked (log 6). -/
def State.refuse (s : State) (why : RefusedRequest) : State := { s with refusals := s.refusals ++ [why] }

/-! ## The host interface (R8, R104, R108) -/

/-- A request issued while an operation is in progress is held at the interface (R108); put back, it stands before every later
one (log 7). -/
def State.hold (s : State) (i : Instr) : State :=
  match encode s.build i with
  | .request r => { s with held := r :: s.held }
  | .frame _ => s

/-- Reset applied by the host (R104): the reset state of this instance; an operation in progress is abandoned, no bus
write is made (R105). `rest` is what the host does next; the transport is not the block's to reset (log 16), and a request held
at the interface is not dropped (R108; log 23). -/
def State.applyReset (s : State) (rest : List HostEvent) : State :=
  { State.reset with build := s.build, inbox := rest, held := s.held, answers := s.answers, draws := s.draws }

/-! ## Accepting a request -/

/-- Requests are accepted one at a time (R108): while an operation is in progress the request is held. -/
def whenIdle (i : Instr) (s : State) (act : Host.Outcome State Fault Refusal) : Host.Outcome State Fault Refusal :=
  match s.op with
  | some _ => .next (s.hold i)
  | none => act

/-- The precondition of every operation but INIT: the block is configured, else the request is refused (R102). -/
def whenConfigured (s : State) (act : DisplayConfig → Host.Outcome State Fault Refusal) :
    Host.Outcome State Fault Refusal :=
  match s.cfg with
  | none => .next (s.refuse .unconfigured)
  | some c => act c

/-- A drawing operation's end: `OK` with the new framebuffer, or the stop on an index outside `fb`. -/
def State.drawn (s : State) (r : Except Nat Memory) : Host.Outcome State Fault Refusal :=
  match r with
  | .error i => .fault (.framebufferBounds i)
  | .ok m => .next ({ s with fb := m }.complete)

end Sys2Proof.Machine
end

