-- ==== Sys2Proof/Machine/Show.lean ====
section
/-! DEFINITION. SHOW (43_show.md): its acceptance, and the payloads of its data frames. -/

namespace Sys2Proof.Machine

/-- SHOW (R73): the walk starts at offset 0; its data writes are the frame instruction DATA_FRAME (Frames.lean), one step
each (R20). With nothing to send the loop of R73 ends at once. -/
def execShowFb (s : State) : Host.Outcome State Fault Refusal :=
  whenIdle .showFb s <| whenConfigured s fun _ =>
    if s.fb.size = 0 then .next s.complete else .next { s with op := some (.flush 0) }

/-- `min(o + CHUNK, len(fb))`: where the chunk at offset `o` ends (R73). -/
def State.chunkEnd (s : State) (o : Nat) : Nat := min (o + s.build.chunk) s.fb.size

/-- The payload of the data frame at offset `o`: `fb[o : min(o + CHUNK, len(fb)))` (R43, R73). -/
def State.chunkAt (s : State) (o : Nat) : List Byte := s.fb.slice o (s.chunkEnd o)

/-- `N = ceil(L / CHUNK)`, the number of data writes of one SHOW (R74). -/
def State.chunkCount (s : State) : Nat := (s.fb.size + s.build.chunk - 1) / s.build.chunk

/-- The payloads of one SHOW: write `m` carries `fb[m * CHUNK : min((m + 1) * CHUNK, L))` (R74). -/
def State.payloads (s : State) : List (List Byte) :=
  (List.range s.chunkCount).map fun m => s.fb.slice (m * s.build.chunk) (min ((m + 1) * s.build.chunk) s.fb.size)

end Sys2Proof.Machine
end

