-- ==== Sys2Proof/Machine/Frames.lean ====
section
/-! DEFINITION. The lcd_command_serializer: the frames of INIT and SHOW, one bus write a step (30_encoding.md, R58 to R60,
R73 to R78). A frame is produced only where it is due: command frames in INIT, the entry `k` of `INIT_SEQ`; data frames in
SHOW, the chunk at offset `o`. -/

namespace Sys2Proof.Machine

/-- INIT has had all its writes answered `Ok`: `cfg` becomes the record, the result is `OK` (R55). -/
def State.configured (s : State) (width height : Int) (addr : DeviceAddress) : State :=
  { s with cfg := some { width := width, height := height, addr := addr } }.complete

/-- INIT fails on the bus (R60): `cfg` stays `none`, the result is `TransportError`; `fb` is unspecified, so it becomes a
free value (log 5). -/
def State.initFailed (s : State) : State :=
  { s with fb := Memory.ofBytes (Config.freeFramebuffer s.draws), draws := s.draws + 1 }.raise .transportError

/-- The command that is due: entry `k` of `INIT_SEQ` while INIT is in progress (R58). -/
def State.commandDue (s : State) : Option Command :=
  match s.op with
  | some (.init _ _ _ k) => s.build.initSeq[k]?
  | _ => none

/-- The command-framed write of a command (R42) as the next write of INIT (R58): answered `Ok`, INIT goes on with the next
entry or, after entry 16, ends `OK`; answered `TransportError`, it ends (R60); unanswered, it waits (R112). -/
def sendCommand (c : Command) (s : State) : Host.Outcome State Fault Refusal :=
  match s.op with
  | some (.init w h a k) =>
    if s.commandDue = some c then
      match s.busWrite a c.frame with
      | (none, s') => .next s'
      | (some .transportError, s') => .next s'.initFailed
      | (some .ok, s') =>
        if k < 16 then .next { s' with op := some (.init w h a (k + 1)) } else .next (s'.configured w h a)
    else .refused .frameNotDue
  | _ => .refused .frameNotDue

/-- The data-framed write of a payload (R43) as the next write of SHOW (R73): answered `Ok`, SHOW goes on after the chunk
or ends `OK`; answered `TransportError`, it ends and no state but the result changes (R78); unanswered, it waits (R112). -/
def sendData (p : List Byte) (s : State) : Host.Outcome State Fault Refusal :=
  match s.op, s.cfg with
  | some (.flush o), some c =>
    if o < s.fb.size ∧ p = s.chunkAt o then
      match s.busWrite c.addr (ctrlData :: p) with
      | (none, s') => .next s'
      | (some .transportError, s') => .next (s'.raise .transportError)
      | (some .ok, s') =>
        if s.chunkEnd o < s.fb.size then .next { s' with op := some (.flush (s.chunkEnd o)) } else .next s'.complete
    else .refused .frameNotDue
  | _, _ => .refused .frameNotDue

/-- CMD_FRAME (R42): `CmdWrite` of a command, opcode first. -/
def execCmdFrame (opcode : Byte) (operands : List Byte) (s : State) : Host.Outcome State Fault Refusal :=
  sendCommand ⟨opcode, operands⟩ s

/-- DATA_FRAME (R43): `DataWrite` of a payload. -/
def execDataFrame (payload : List Byte) (s : State) : Host.Outcome State Fault Refusal :=
  sendData payload s

end Sys2Proof.Machine
end

