-- ==== Sys2Proof/Machine/Commands.lean ====
section
/-! DEFINITION. The 17 initialization commands of the default INIT_SEQ (R51, R52), each one command-framed write of INIT. Which
byte means what to the controller is outside the block (R4); the byte values are the spec's general knowledge (log 3). -/

namespace Sys2Proof.Machine

/-- DISPLAY_OFF (R52, k = 0): display off. -/
def execDisplayOff (s : State) : Host.Outcome State Fault Refusal := sendCommand ⟨0xAE, []⟩ s

/-- SET_CLOCK_DIV (R52, k = 1): clock divide. -/
def execSetClockDiv (s : State) : Host.Outcome State Fault Refusal := sendCommand ⟨0xD5, [0x80]⟩ s

/-- SET_MULTIPLEX (R52, k = 2): multiplex ratio. -/
def execSetMultiplex (s : State) : Host.Outcome State Fault Refusal := sendCommand ⟨0xA8, [0x3F]⟩ s

/-- SET_DISPLAY_OFFSET (R52, k = 3): display offset. -/
def execSetDisplayOffset (s : State) : Host.Outcome State Fault Refusal := sendCommand ⟨0xD3, [0x00]⟩ s

/-- SET_START_LINE (R52, k = 4): start line. -/
def execSetStartLine (s : State) : Host.Outcome State Fault Refusal := sendCommand ⟨0x40, []⟩ s

/-- CHARGE_PUMP (R52, k = 5): charge-pump enable. -/
def execChargePump (s : State) : Host.Outcome State Fault Refusal := sendCommand ⟨0x8D, [0x14]⟩ s

/-- MEMORY_MODE (R52, k = 6): addressing mode. -/
def execMemoryMode (s : State) : Host.Outcome State Fault Refusal := sendCommand ⟨0x20, [0x00]⟩ s

/-- SEG_REMAP (R52, k = 7): segment remap. -/
def execSegRemap (s : State) : Host.Outcome State Fault Refusal := sendCommand ⟨0xA1, []⟩ s

/-- COM_SCAN_DEC (R52, k = 8): COM scan direction. -/
def execComScanDec (s : State) : Host.Outcome State Fault Refusal := sendCommand ⟨0xC8, []⟩ s

/-- SET_COM_PINS (R52, k = 9): COM pin config. -/
def execSetComPins (s : State) : Host.Outcome State Fault Refusal := sendCommand ⟨0xDA, [0x12]⟩ s

/-- SET_CONTRAST (R52, k = 10): contrast. -/
def execSetContrast (s : State) : Host.Outcome State Fault Refusal := sendCommand ⟨0x81, [0xCF]⟩ s

/-- SET_PRECHARGE (R52, k = 11): pre-charge period. -/
def execSetPrecharge (s : State) : Host.Outcome State Fault Refusal := sendCommand ⟨0xD9, [0xF1]⟩ s

/-- SET_VCOM_DESELECT (R52, k = 12): VCOM deselect level. -/
def execSetVcomDeselect (s : State) : Host.Outcome State Fault Refusal := sendCommand ⟨0xDB, [0x40]⟩ s

/-- DISPLAY_ALL_ON_RESUME (R52, k = 13): resume-from-RAM. -/
def execDisplayAllOnResume (s : State) : Host.Outcome State Fault Refusal := sendCommand ⟨0xA4, []⟩ s

/-- NORMAL_DISPLAY (R52, k = 14): normal (non-inverted) polarity. -/
def execNormalDisplay (s : State) : Host.Outcome State Fault Refusal := sendCommand ⟨0xA6, []⟩ s

/-- DEACTIVATE_SCROLL (R52, k = 15): deactivate any scroll. -/
def execDeactivateScroll (s : State) : Host.Outcome State Fault Refusal := sendCommand ⟨0x2E, []⟩ s

/-- DISPLAY_ON (R52, k = 16): display on. -/
def execDisplayOn (s : State) : Host.Outcome State Fault Refusal := sendCommand ⟨0xAF, []⟩ s

end Sys2Proof.Machine
end

