-- ==== Sys2Proof/Machine/Draw.lean ====
section
/-! DEFINITION. The drawing operations SET_PIXEL, FILL and DRAW_TEXT (41_set_pixel.md, 42_fill.md, 44_draw_text.md). They make
no bus write and take one step. -/

namespace Sys2Proof.Machine

/-- SET_PIXEL (R64): out of range nothing is read or written (R65); always `OK`. -/
def execSetPixel (x y : Int) (color : Color) (s : State) : Host.Outcome State Fault Refusal :=
  whenIdle (.setPixel x y color) s <| whenConfigured s fun c => s.drawn (plot c color s.fb x y)

/-- FILL (R69): the whole buffer is replaced by the pattern; its length stays; always `OK`. -/
def execFill (color : Color) (s : State) : Host.Outcome State Fault Refusal :=
  whenIdle (.fill color) s <| whenConfigured s fun _ =>
    .next ({ s with fb := Memory.uniform s.fb.size (fillByte color) }.complete)

/-- DRAW_TEXT (R83): exactly the SET_PIXEL operations of the string's set glyph bits, clipping included; always `OK`. -/
def execDrawText (string : List CharCode) (x y : Int) (color : Color) (s : State) : Host.Outcome State Fault Refusal :=
  whenIdle (.drawText string x y color) s <| whenConfigured s fun c =>
    s.drawn (plotAll c color s.fb (textPixels s.build string x y))

end Sys2Proof.Machine
end

