-- ==== Sys2Proof/Machine/Init.lean ====
section
/-! DEFINITION. INIT (40_init.md). -/

namespace Sys2Proof.Machine

/-- INIT (R55): refused if configured (R61); `ConfigError` if the dimensions are invalid (R56, R90), before anything else
happens; refused beyond `FB_CAPACITY` (R102); else `fb` is allocated, all zero (R57), and the 17 command writes are to
come, entry 0 first (R58). They are the frame instructions (Frames.lean), one step each (R20). -/
def execInit (width height : Int) (addr : DeviceAddress) (s : State) : Host.Outcome State Fault Refusal :=
  whenIdle (.init width height addr) s <|
    if s.cfg.isSome then .next (s.refuse .alreadyConfigured)
    else if ¬ValidDims width height then .next (s.raise .configError)
    else if s.build.fbCapacity < fbLength width height then .next (s.refuse .overCapacity)
    else .next { s with
      fb := Memory.uniform (fbLength width height) 0x00
      op := some (.init width height addr 0) }

end Sys2Proof.Machine
end

