-- ==== Sys2Proof/Machine/Reserved.lean ====
section
/-! DEFINITION. The reserved operation codes (R50): "the request is *refused*, changes no state and makes no bus write". -/

namespace Sys2Proof.Machine

/-- RESERVED_101 (R50, R102). -/
def execReserved101 (s : State) : Host.Outcome State Fault Refusal :=
  whenIdle .reserved101 s <| .next (s.refuse (.reservedCode 0b101))

/-- RESERVED_110 (R50, R102). -/
def execReserved110 (s : State) : Host.Outcome State Fault Refusal :=
  whenIdle .reserved110 s <| .next (s.refuse (.reservedCode 0b110))

/-- RESERVED_111 (R50, R102). -/
def execReserved111 (s : State) : Host.Outcome State Fault Refusal :=
  whenIdle .reserved111 s <| .next (s.refuse (.reservedCode 0b111))

end Sys2Proof.Machine
end

