-- ==== Sys2Proof/Machine/Dispatch.lean ====
section
/-! DEFINITION. The meaning of every instruction, one arm per row of spec/opcode_table.json. -/

namespace Sys2Proof.Machine

def exec (i : Instr) (s : State) : Host.Outcome State Fault Refusal :=
  match i with
  | .init width height addr => Sys2Proof.Machine.execInit width height addr s
  | .setPixel x y color => Sys2Proof.Machine.execSetPixel x y color s
  | .fill color => Sys2Proof.Machine.execFill color s
  | .showFb => Sys2Proof.Machine.execShowFb s
  | .drawText string x y color => Sys2Proof.Machine.execDrawText string x y color s
  | .reserved101 => Sys2Proof.Machine.execReserved101 s
  | .reserved110 => Sys2Proof.Machine.execReserved110 s
  | .reserved111 => Sys2Proof.Machine.execReserved111 s
  | .cmdFrame opcode operands => Sys2Proof.Machine.execCmdFrame opcode operands s
  | .dataFrame payload => Sys2Proof.Machine.execDataFrame payload s
  | .displayOff => Sys2Proof.Machine.execDisplayOff s
  | .setClockDiv => Sys2Proof.Machine.execSetClockDiv s
  | .setMultiplex => Sys2Proof.Machine.execSetMultiplex s
  | .setDisplayOffset => Sys2Proof.Machine.execSetDisplayOffset s
  | .setStartLine => Sys2Proof.Machine.execSetStartLine s
  | .chargePump => Sys2Proof.Machine.execChargePump s
  | .memoryMode => Sys2Proof.Machine.execMemoryMode s
  | .segRemap => Sys2Proof.Machine.execSegRemap s
  | .comScanDec => Sys2Proof.Machine.execComScanDec s
  | .setComPins => Sys2Proof.Machine.execSetComPins s
  | .setContrast => Sys2Proof.Machine.execSetContrast s
  | .setPrecharge => Sys2Proof.Machine.execSetPrecharge s
  | .setVcomDeselect => Sys2Proof.Machine.execSetVcomDeselect s
  | .displayAllOnResume => Sys2Proof.Machine.execDisplayAllOnResume s
  | .normalDisplay => Sys2Proof.Machine.execNormalDisplay s
  | .deactivateScroll => Sys2Proof.Machine.execDeactivateScroll s
  | .displayOn => Sys2Proof.Machine.execDisplayOn s

end Sys2Proof.Machine
end

