-- ==== Sys2Proof/Machine/Fetch.lean ====
section
/-! DEFINITION. Where the next instruction comes from. The block fetches no program (R16): an idle block takes the
oldest request held at the interface; a block with an INIT or a SHOW in progress forms the next frame of it. -/

namespace Sys2Proof.Machine

/-- The requests among the host's events, in order. -/
def arrivals (events : List HostEvent) : List Request :=
  events.filterMap fun e =>
    match e with
    | .request r => some r
    | _ => none

/-- What the host does in `n` steps without a reset: its events are used up, one a step, and the requests it issues wait at
the interface behind those already held (R108; log 9). -/
def State.afterHost (s : State) (n : Nat) : State :=
  { s with inbox := s.inbox.drop n, held := s.held ++ arrivals (s.inbox.take n) }

/-- The host's part of one step. -/
def State.takeInput (s : State) : State := s.afterHost 1

/-- The next code word: the frame that is due while an operation is in progress (R58, R73), else the oldest request at the
interface (R108); `none` when there is none. -/
def State.fetch (s : State) : Option Code :=
  match s.op with
  | some (.init _ _ _ _) => s.commandDue.map fun c => .frame c.frame
  | some (.flush o) => some (.frame (ctrlData :: s.chunkAt o))
  | none => s.held.head?.map .request

/-- An idle block accepts the oldest request; a busy one leaves them all held (R108). -/
def State.accept (s : State) : State :=
  { s with held := if s.op.isNone then s.held.tail else s.held }

/-- The inbox without resets at its head, so that the next step fetches (log 17). -/
def afterResets : List HostEvent → List HostEvent
  | .reset :: rest => afterResets rest
  | l => l

/-- `s` with a code word placed where the next step takes it (log 17). A request: the block is idle and the request stands
first at the interface. A command frame: INIT of the smallest display is in progress at entry 0, and that entry of this
instance's `INIT_SEQ` is the command. A data frame: SHOW is in progress at offset 0 of a configured one-page display whose
framebuffer is the payload. For a frame the transport answers `Ok`. -/
def State.placeCode (s : State) : Code → State
  | .request r => { s with op := none, held := r :: s.held, inbox := afterResets s.inbox }
  | .frame (control :: first :: rest) =>
    if control = ctrlData then
      { s with
        cfg := some { width := ↑(rest.length + 1), height := 8, addr := 0 }
        fb := Memory.ofBytes (first :: rest)
        op := some (.flush 0)
        inbox := afterResets s.inbox
        answers := some .ok :: s.answers
        build := { s.build with chunk := rest.length.succPNat } }
    else
      { s with
        cfg := none
        fb := Memory.uniform 1 0x00
        op := some (.init 1 8 0 0)
        inbox := afterResets s.inbox
        answers := some .ok :: s.answers
        build := { s.build with initSeq := s.build.initSeq.set 0 ⟨first, rest⟩ } }
  | .frame _ => s

end Sys2Proof.Machine
end

