-- ==== Sys2Proof/Machine/Step.lean ====
section
/-! DEFINITION. One step: the host's reset if it is applied, else the next instruction, else an idle step. -/

namespace Sys2Proof.Machine

/-- One step of the machine (R5, R20): one accepted request, or one bus write of the operation in progress. Reset takes
effect between two of them at the step at which the host applies it, also inside an operation, whatever requests are held
(R104, R112). Otherwise the host's event of this step comes first; with nothing to execute the block stays as it is. -/
def step (s : State) : Host.Outcome State Fault Refusal :=
  match s.inbox with
  | .reset :: rest => .next (s.applyReset rest)
  | _ =>
    match s.takeInput.fetch with
    | none => .next s.takeInput
    | some code =>
      match decode s.build code with
      | .ok i => exec i s.takeInput.accept
      | .error e => .refused (.undecodable e)

/-- `s` with a word of spec/opcode_table.json placed where `step` fetches its next instruction. -/
def State.withFetchWord (s : State) (nbits w : Nat) : State := s.placeCode (tableCode nbits w)

end Sys2Proof.Machine
end

