-- ==== Sys2Proof/Safety.lean ====
section
/-! DEFINITION. What claims about runs are stated in: the frames the block may produce, the invariant of the state, and a run
without refused requests. -/

namespace Sys2Proof.Machine

/-- A frame the block may produce (R44): control byte 0x00 or 0x40, and something after it. -/
def legalFrame : List Byte → Bool
  | control :: _ :: _ => control == ctrlCmd || control == ctrlData
  | _ => false

/-- The invariant of the machine. -/
structure Inv (s : State) : Prop where
  /-- the framebuffer is in its canonical form -/
  memory : s.fb.wf = true
  /-- a configured block: legal dimensions, `len(fb) = (cfg.height / 8) * cfg.width` (R10, R11, R13), within capacity (R102) -/
  configured : ∀ c, s.cfg = some c →
    ValidDims c.width c.height ∧ s.fb.size = fbLength c.width c.height ∧ s.fb.size ≤ s.build.fbCapacity
  /-- INIT in progress: unconfigured, its operands are legal, `fb` is allocated and zero, an entry is still to be sent
  (R20, R55) -/
  initializing : ∀ w h a k, s.op = some (.init w h a k) →
    s.cfg = none ∧ ValidDims w h ∧ fbLength w h ≤ s.build.fbCapacity ∧
      s.fb = Memory.uniform (fbLength w h) 0x00 ∧ k < 17
  /-- SHOW in progress: configured, the offset is a multiple of `CHUNK` below `len(fb)` (R20) -/
  flushing : ∀ o, s.op = some (.flush o) →
    s.cfg.isSome = true ∧ o < s.fb.size ∧ o % s.build.chunk = 0
  /-- every write of the bus history is a legal frame (R44) -/
  frames : ∀ r ∈ s.history, legalFrame r.bytes = true

/-- A run without a refused request so far (R102: such a run is one the spec speaks about). -/
def State.unrefused (s : State) : Bool := s.refusals.isEmpty

/-- `n` steps: `core.run` with the machine's own types. -/
def steps : Nat → State → Host.Outcome State Fault Refusal
  | 0, s => .next s
  | n + 1, s =>
    match step s with
    | .next t => steps n t
    | .fault f => .fault f
    | .refused r => .refused r

/-- Instructions executed one after another: what a statement about a sequence of operations is about. -/
def execAll : List Instr → State → Host.Outcome State Fault Refusal
  | [], s => .next s
  | i :: rest, s =>
    match exec i s with
    | .next t => execAll rest t
    | .fault f => .fault f
    | .refused r => .refused r

/-- A character that draws nothing: no glyph, or a glyph whose 8 bytes are zero (R84). -/
def blankChar (b : Build) (c : CharCode) : Prop :=
  fontGlyph b c = none ∨ ∃ g, fontGlyph b c = some g ∧ ∀ i : Fin 8, g.get i = 0x00

/-- The display's coordinates (R19): the pairs that name a pixel. -/
abbrev InRange (c : DisplayConfig) (x y : Int) : Prop := 0 ≤ x ∧ x < c.width ∧ 0 ≤ y ∧ y < c.height

/-- The host applies no reset during the next `n` steps: it issues requests, is quiet, or does nothing more. -/
abbrev State.noResetWithin (s : State) (n : Nat) : Prop := HostEvent.reset ∉ s.inbox.take n

/-- The host does not apply reset at the next step. -/
def State.noReset (s : State) : Bool :=
  match s.inbox with
  | .reset :: _ => false
  | _ => true

end Sys2Proof.Machine
end

