-- ==== Sys2Proof/WellFormed.lean ====
section
/-! DEFINITION. Which instructions the encodings of 30_encoding.md admit, for a given instance. -/

namespace Sys2Proof

/-- The integers a signed two's complement operand of `width` bits can hold (R47). -/
abbrev FitsSigned (width : Nat) (v : Int) : Prop := -(2 ^ width : Int) ≤ 2 * v ∧ 2 * v < 2 ^ width

/-- Well-formedness: operands fit their inputs (R47, R49); a data frame carries 1 to `CHUNK` bytes (R43); `cmdFrame` is
kept for commands that are no named row (log 18). -/
def Instr.wellFormed (b : Build) : Instr → Bool
  | .init w h a => decide (FitsSigned b.coordWidth w ∧ FitsSigned b.coordWidth h ∧ a < 2 ^ b.addrWidth)
  | .setPixel x y _ => decide (FitsSigned b.coordWidth x ∧ FitsSigned b.coordWidth y)
  | .fill _ => true
  | .showFb => true
  | .drawText t x y _ =>
      decide (FitsSigned b.coordWidth x ∧ FitsSigned b.coordWidth y) && t.all fun c => decide (c < 2 ^ b.charWidth)
  | .reserved101 => true
  | .reserved110 => true
  | .reserved111 => true
  | .cmdFrame o p => commandRow commandRows ⟨o, p⟩ == none
  | .dataFrame p => decide (1 ≤ p.length ∧ p.length ≤ b.chunk)
  | .displayOff => true
  | .setClockDiv => true
  | .setMultiplex => true
  | .setDisplayOffset => true
  | .setStartLine => true
  | .chargePump => true
  | .memoryMode => true
  | .segRemap => true
  | .comScanDec => true
  | .setComPins => true
  | .setContrast => true
  | .setPrecharge => true
  | .setVcomDeselect => true
  | .displayAllOnResume => true
  | .normalDisplay => true
  | .deactivateScroll => true
  | .displayOn => true

end Sys2Proof
end

