-- ==== Sys2Proof/Certificates/Slice0/Obligations.lean ====
section
/-! DEFINITION. The statements for the provers. -/

open Sys2Proof Sys2Proof.Machine

/-! ## Reset and the invariant -/

/-- R23, R104: after reset the block is unconfigured, no operation is in progress and `H` is empty. -/
def Obligations.ResetIsUnconfigured : Prop :=
  State.reset.cfg = none ∧ State.reset.op = none ∧ State.reset.history = []

/-- The invariant holds right after reset. -/
def Obligations.ResetMeetsInvariant : Prop := Inv State.reset

/-- The invariant (R10, R11, R13, R20, R44, and the canonical memory) is kept by every step. -/
def Obligations.StepKeepsInvariant : Prop := ∀ s t : State, Inv s → step s = .next t → Inv t

/-- From every state of the invariant a step answers a next state, never a fault and never a refusal. For the two errors this is
R93 and R95 (they are results), for the framebuffer R30 (every index is in range). That a refused request (R102), an unanswered
bus write and an idle host also give a next state is the model's choice (log 6, log 8, log 9). -/
def Obligations.InvariantStepNeverStops : Prop := ∀ s : State, Inv s → ∃ t, step s = .next t

/-- R104, R105: reset, also inside an operation, leaves the block unconfigured with no operation in progress; it makes no
bus write (no answer of the transport is used) and `H` starts empty. What is left of inbox, answers, instance and counter
is the model's choice (log 16), and so is that reset lands between two bus writes (log 22) and that requests held at the interface
are not dropped (log 23). -/
def Obligations.ResetAbandonsOperation : Prop :=
  ∀ (s : State) (rest : List HostEvent), s.inbox = .reset :: rest →
    ∃ t, step s = .next t ∧ t.cfg = none ∧ t.op = none ∧ t.history = [] ∧ t.results = [] ∧
      t.answers = s.answers ∧ t.inbox = rest ∧ t.held = s.held ∧ t.build = s.build ∧ t.draws = s.draws

/-! ## Encodings -/

/-- Decoding an encoded well-formed instruction gives it back, for every instance. The bytes of the named commands are the
table's (log 3), and their naming is the model's choice (log 18). -/
def Obligations.DecodeEncodeRoundTrip : Prop :=
  ∀ (b : Build) (i : Instr), i.wellFormed b = true → decode b (encode b i) = .ok i

/-- What decodes is well formed, and a frame that decodes is the encoding of what it decodes to: a frame has one
meaning. That inputs are read at their width (log 13) and that a named row's bytes (log 3) are no `cmdFrame` (log 18) is the
model's reading. -/
def Obligations.DecodedFrameEncodesBack : Prop :=
  (∀ (b : Build) (bytes : List Byte) (i : Instr), decode b (.frame bytes) = .ok i →
    i.wellFormed b = true ∧ encode b i = .frame bytes) ∧
  (∀ (b : Build) (r : Request), ∃ i, decode b (.request r) = .ok i ∧ i.wellFormed b = true)

/-- R44: a byte sequence decodes to a frame instruction exactly if it is a legal frame, its payload at most `CHUNK` bytes
if it is a data frame (R43). -/
def Obligations.FrameDecodesExactlyIfLegal : Prop :=
  ∀ (b : Build) (bytes : List Byte), (∃ i, decode b (.frame bytes) = .ok i) ↔
    (legalFrame bytes = true ∧ (bytes.head? = some 0x40 → bytes.length ≤ 1 + b.chunk))

/-- Words written out from R42, R43, R46, R48 and R52 decode to the instructions they stand for. The bytes of the two named
commands are the table's (general knowledge, R52; log 3), and that they decode to the named row and not to CMD_FRAME is the
model's choice (log 18). -/
def Obligations.SpecWordsDecode : Prop :=
  decode Build.reference (.request { op := 0b000, width := 128, height := 64, addr := 0x3C }) = .ok (.init 128 64 0x3C) ∧
  decode Build.reference (.request { op := 0b001, x := 0xFFFF, y := 7, color := 1 }) = .ok (.setPixel (-1) 7 .on) ∧
  decode Build.reference (.request { op := 0b010, color := 0 }) = .ok (.fill .off) ∧
  decode Build.reference (.request { op := 0b011 }) = .ok .showFb ∧
  decode Build.reference (.request { op := 0b100, string := [0x41, 0x42], x := 2, y := 5, color := 1 }) =
    .ok (.drawText [0x41, 0x42] 2 5 .on) ∧
  decode Build.reference (.request { op := 0b110 }) = .ok .reserved110 ∧
  decode Build.reference (.frame [0x00, 0xD5, 0x80]) = .ok .setClockDiv ∧
  decode Build.reference (.frame [0x00, 0x40]) = .ok .setStartLine ∧
  decode Build.reference (.frame [0x00, 0xD5, 0x81]) = .ok (.cmdFrame 0xD5 [0x81]) ∧
  decode Build.reference (.frame [0x40, 0xA5]) = .ok (.dataFrame [0xA5])

/-! ## The step -/

/-- A step runs the decoded instruction. Six clauses: an idle block accepts the oldest request at the interface, one that
arrives in this step standing behind those held (R46, R108); in INIT the step runs the frame of the entry that is due (R58); in
SHOW the frame of the chunk that is due (R73); an idle block without a request whose host does nothing more stays as it is, and
one whose host is quiet for the step only uses that up (the model's choice, log 9); reset is applied at once (R104). Of the state
reset leaves, R104 and R23 give `cfg`, the operation and `H`; the empty `fb` (log 4), what becomes of the model's own fields
(log 16) and of held requests (log 23), and that reset lands between two bus writes (log 22) are the model's choices. -/
def Obligations.StepRunsDecodedInstruction : Prop :=
  ∀ s : State,
    (∀ r waiting i, s.op = none → s.noReset = true → s.held ++ arrivals (s.inbox.take 1) = r :: waiting →
      decode s.build (.request r) = .ok i → step s = exec i { s with inbox := s.inbox.drop 1, held := waiting }) ∧
    (∀ w h a k c i, s.op = some (.init w h a k) → s.build.initSeq[k]? = some c → s.noReset = true →
      decode s.build (.frame (0x00 :: c.opcode :: c.operands)) = .ok i → step s = exec i s.takeInput) ∧
    (∀ o i, s.op = some (.flush o) → s.noReset = true →
      decode s.build (.frame (0x40 :: s.fb.slice o (min (o + s.build.chunk) s.fb.size))) = .ok i →
      step s = exec i s.takeInput) ∧
    (s.op = none → s.held = [] → s.inbox = [] → step s = .next s) ∧
    (∀ rest, s.op = none → s.held = [] → s.inbox = .quiet :: rest → step s = .next { s with inbox := rest }) ∧
    (∀ rest, s.inbox = .reset :: rest → step s = .next (s.applyReset rest))

/-- R108: while an operation is in progress every request is held at the interface, one that arrives behind those already held;
an idle block accepts the oldest; none is dropped, merged or reordered. That each step uses up one event of the host is the
model's choice (log 9). -/
def Obligations.RequestsAreHeldWhileBusy : Prop :=
  ∀ s t : State, s.noReset = true → step s = .next t →
    t.inbox = s.inbox.drop 1 ∧
    (s.op.isSome = true → t.held = s.held ++ arrivals (s.inbox.take 1)) ∧
    (s.op = none → t.held = (s.held ++ arrivals (s.inbox.take 1)).tail)

/-- The model's choice for an operation executed while another is in progress (log 7): the request is held (R108). -/
def Obligations.BusyBlockHoldsTheRequest : Prop :=
  ∀ (i : Instr) (s : State) (o : Operation) (r : Request), s.op = some o → encode s.build i = .request r →
    exec i s = .next { s with held := r :: s.held }

/-- R13, R61: `cfg` is written by the end of a successful INIT only; once a record it keeps its value until reset. -/
def Obligations.ConfigurationIsImmutable : Prop :=
  ∀ s t : State, s.noReset = true → step s = .next t →
    (t.cfg = s.cfg ∨ ∃ w h a k rest, s.op = some (.init w h a k) ∧ k = 16 ∧ s.answers = some .ok :: rest ∧
      t.cfg = some ⟨w, h, a⟩ ∧ t.op = none ∧ t.results = s.results ++ [.ok]) ∧
    (Inv s → ∀ c, s.cfg = some c → t.cfg = some c)

/-- R6: the build parameters are fixed for one instance; no step changes them (that State carries them is the model's
choice, log 2). -/
def Obligations.BuildNeverChanges : Prop := ∀ s t : State, step s = .next t → t.build = s.build

/-- R33, R36, R44: but for reset, a step appends at most one write to `H`; it is a legal frame, a command frame to INIT's
address operand while INIT is in progress, or a data frame to `cfg.addr` while SHOW is. -/
def Obligations.HistoryGrowsByLegalFrames : Prop :=
  ∀ s t : State, s.noReset = true → step s = .next t →
    t.history = s.history ∨ ∃ r, t.history = s.history ++ [r] ∧ legalFrame r.bytes = true ∧
      ((∃ w h a k, s.op = some (.init w h a k) ∧ r.addr = a ∧ r.bytes.head? = some 0x00) ∨
       (∃ o c, s.op = some (.flush o) ∧ s.cfg = some c ∧ r.addr = c.addr ∧ r.bytes.head? = some 0x40))

/-- R89, R96: but for reset, a step returns at most one result, and after it the block is ready for the next operation. -/
def Obligations.OneResultEndsTheOperation : Prop :=
  ∀ s t : State, s.noReset = true → step s = .next t →
    t.results = s.results ∨ ∃ r, t.results = s.results ++ [r] ∧ t.op = none

/-- R112: with an operation in progress and a transport that never answers, the block waits: the step changes nothing but
that the host's event of this step is used up, a request it issues being held (the lists of answers and host events are the
model's, log 8, log 9). -/
def Obligations.SilentTransportWaits : Prop :=
  ∀ s : State, Inv s → s.op.isSome = true → s.answers = [] → s.noReset = true →
    step s = .next { s with inbox := s.inbox.drop 1, held := s.held ++ arrivals (s.inbox.take 1) }

/-! ## INIT -/

/-- R90, R55, R94: on an unconfigured block `ConfigError` is raised by INIT and only by INIT, exactly on invalid dimensions,
before any state is written and before any bus write. On a configured block INIT is refused whatever its dimensions (R61): that
this goes before R90's 'exactly when' is the model's reading (log 20). -/
def Obligations.ConfigErrorExactlyOnInvalidInit : Prop :=
  (∀ (s : State) (w h : Int) (a : DeviceAddress), s.op = none → s.cfg = none → (h ≤ 0 ∨ h % 8 ≠ 0 ∨ w ≤ 0) →
    exec (.init w h a) s = .next { s with results := s.results ++ [.error .configError] }) ∧
  (∀ (i : Instr) (s t : State), exec i s = .next t → t.results = s.results ++ [.error .configError] →
    ∃ w h a, i = .init w h a ∧ s.cfg = none ∧ (h ≤ 0 ∨ h % 8 ≠ 0 ∨ w ≤ 0) ∧
      t = { s with results := s.results ++ [.error .configError] })

/-- R57: after a successful validation `fb` is `(height / 8) * width` bytes of 0x00, every pixel is off, and this happens
before the first bus write; INIT is then in progress at entry 0. -/
def Obligations.InitAllocatesZeroFramebuffer : Prop :=
  ∀ (s : State) (w h : Int) (a : DeviceAddress), s.op = none → s.cfg = none → 0 < h → h % 8 = 0 → 0 < w →
    h / 8 * w ≤ s.build.fbCapacity →
    ∃ t, exec (.init w h a) s = .next t ∧ t = { s with fb := t.fb, op := some (.init w h a 0) } ∧
      t.fb.wf = true ∧ t.fb.bytes = List.replicate (h / 8 * w).toNat 0x00 ∧
      ∀ x y, 0 ≤ x → x < w → 0 ≤ y → y < h → pixel ⟨w, h, a⟩ t.fb x y = some false

/-- R61, R102: INIT on a configured block, and INIT with valid dimensions beyond `FB_CAPACITY`, are refused: no state
changes, no bus write, no result. That the run goes on with a mark is the model's choice (log 6), and that a configured block
refuses INIT whatever its dimensions is its reading (log 20). -/
def Obligations.InitRefusals : Prop :=
  (∀ (s : State) (c : DisplayConfig) (w h : Int) (a : DeviceAddress), s.op = none → s.cfg = some c →
    exec (.init w h a) s = .next { s with refusals := s.refusals ++ [.alreadyConfigured] }) ∧
  (∀ (s : State) (w h : Int) (a : DeviceAddress), s.op = none → s.cfg = none → ValidDims w h →
    s.build.fbCapacity < h / 8 * w →
    exec (.init w h a) s = .next { s with refusals := s.refusals ++ [.overCapacity] })

/-- R58, R41: INIT whose every write is answered `Ok`, after whatever waits (`none`), sends the 17 entries of `INIT_SEQ`, entry 0
first, each as its own command-framed write to the address operand, and nothing else, then ends `OK`, configured. For every
`INIT_SEQ`. The premise on the host is that it applies no reset meanwhile: it may be quiet, and a request it issues is held. The
lists of the transport's answers and waits (log 8) and of the host's events (log 9) are the model's. -/
def Obligations.InitSendsWholeSequence : Prop :=
  ∀ (s : State) (w h : Int) (a : DeviceAddress) (l rest : List (Option Answer)),
    s.op = none → s.cfg = none → ValidDims w h → fbLength w h ≤ s.build.fbCapacity →
    s.noResetWithin l.length → s.answers = l ++ rest → l.filterMap id = List.replicate 17 .ok →
    l.getLast? = some (some .ok) →
    ∃ s₁ t, exec (.init w h a) s = .next s₁ ∧ steps l.length s₁ = .next t ∧
      t = { s with
        cfg := some ⟨w, h, a⟩
        fb := Memory.uniform (fbLength w h) 0x00
        answers := rest
        inbox := s.inbox.drop l.length
        held := s.held ++ arrivals (s.inbox.take l.length)
        history := s.history ++ s.build.initSeq.toList.map fun c => ⟨a, 0x00 :: c.opcode :: c.operands, .ok⟩
        results := s.results ++ [.ok] } ∧
      cmdStream t.history = cmdStream s.history ++ s.build.initSeq.toList.map fun c => c.opcode :: c.operands

/-- R60: a `TransportError` at entry `k` stops INIT at once: entries 0 to `k - 1` were sent, entry `k` is the failed write,
nothing follows, `cfg` stays `none` and the block is idle again. Nothing is said of `fb`, which R60 leaves unspecified. The
host applies no reset meanwhile: it may be quiet, and a request it issues is held (log 9). The transport may wait before each answer
(log 8). -/
def Obligations.InitStopsAtFailedEntry : Prop :=
  ∀ (s : State) (w h : Int) (a : DeviceAddress) (k : Nat) (c : Command) (l rest : List (Option Answer)),
    s.op = none → s.cfg = none → ValidDims w h → fbLength w h ≤ s.build.fbCapacity →
    s.noResetWithin (l.length + 1) → s.build.initSeq[k]? = some c → s.answers = l ++ some .transportError :: rest →
    l.filterMap id = List.replicate k .ok →
    ∃ s₁ t, exec (.init w h a) s = .next s₁ ∧ steps (l.length + 1) s₁ = .next t ∧
      t = { s with
        fb := t.fb
        draws := t.draws
        answers := rest
        inbox := s.inbox.drop (l.length + 1)
        held := s.held ++ arrivals (s.inbox.take (l.length + 1))
        history := s.history ++ ((s.build.initSeq.toList.take k).map fun c => ⟨a, 0x00 :: c.opcode :: c.operands, .ok⟩) ++
          [⟨a, 0x00 :: c.opcode :: c.operands, .transportError⟩]
        results := s.results ++ [.error .transportError] }

/-! ## Command frames -/

/-- R42, R52, R55: where the entry that is due has a named row's bytes, that row's instruction makes exactly that write; answered
`Ok`, INIT goes on with the next entry or, after entry 16, ends `OK` with `cfg` the record. The bytes are the table's
(general knowledge, R52; log 3). -/
def Obligations.NamedCommandWritesItsFrame : Prop :=
  ∀ row ∈ ([(.displayOff, [0x00, 0xAE]), (.setClockDiv, [0x00, 0xD5, 0x80]), (.setMultiplex, [0x00, 0xA8, 0x3F]),
      (.setDisplayOffset, [0x00, 0xD3, 0x00]), (.setStartLine, [0x00, 0x40]), (.chargePump, [0x00, 0x8D, 0x14]),
      (.memoryMode, [0x00, 0x20, 0x00]), (.segRemap, [0x00, 0xA1]), (.comScanDec, [0x00, 0xC8]),
      (.setComPins, [0x00, 0xDA, 0x12]), (.setContrast, [0x00, 0x81, 0xCF]), (.setPrecharge, [0x00, 0xD9, 0xF1]),
      (.setVcomDeselect, [0x00, 0xDB, 0x40]), (.displayAllOnResume, [0x00, 0xA4]), (.normalDisplay, [0x00, 0xA6]),
      (.deactivateScroll, [0x00, 0x2E]), (.displayOn, [0x00, 0xAF])] : List (Instr × List Byte)),
    ∀ (s : State) (w h : Int) (a : DeviceAddress) (k : Nat) (c : Command) (rest : List (Option Answer)),
      s.op = some (.init w h a k) → s.build.initSeq[k]? = some c → 0x00 :: c.opcode :: c.operands = row.2 →
      s.answers = some .ok :: rest →
      (k < 16 → exec row.1 s = .next { s with
        answers := rest, history := s.history ++ [⟨a, row.2, .ok⟩], op := some (.init w h a (k + 1)) }) ∧
      (k = 16 → exec row.1 s = .next { s with
        answers := rest, history := s.history ++ [⟨a, row.2, .ok⟩], op := none, cfg := some ⟨w, h, a⟩,
        results := s.results ++ [.ok] })

/-- R42, R55: the same for any command: `CmdWrite(c)` is one write of 0x00, the opcode, the operands. -/
def Obligations.CmdFrameWritesTheCommand : Prop :=
  ∀ (opcode : Byte) (operands : List Byte) (s : State) (w h : Int) (a : DeviceAddress) (k : Nat)
    (rest : List (Option Answer)),
    s.op = some (.init w h a k) → s.build.initSeq[k]? = some ⟨opcode, operands⟩ → s.answers = some .ok :: rest →
    (k < 16 → exec (.cmdFrame opcode operands) s = .next { s with
      answers := rest, history := s.history ++ [⟨a, 0x00 :: opcode :: operands, .ok⟩],
      op := some (.init w h a (k + 1)) }) ∧
    (k = 16 → exec (.cmdFrame opcode operands) s = .next { s with
      answers := rest, history := s.history ++ [⟨a, 0x00 :: opcode :: operands, .ok⟩], op := none,
      cfg := some ⟨w, h, a⟩, results := s.results ++ [.ok] })

/-- The frame of every frame instruction (CMD_FRAME, DATA_FRAME and the 17 named commands): instance, host and marks are
unchanged; `cfg` but for the end of INIT, the `Ok` to its entry 16; every byte of the framebuffer but for an
INIT that the transport fails, whose `fb` R60 leaves unspecified. -/
def Obligations.FrameInstructionsFrame : Prop :=
  ∀ (i : Instr) (b : Build) (bytes : List Byte) (s t : State), encode b i = .frame bytes → exec i s = .next t →
    t.build = s.build ∧ t.inbox = s.inbox ∧ t.held = s.held ∧ t.refusals = s.refusals ∧
    (t.cfg = s.cfg ∨ ∃ w h a k rest, s.op = some (.init w h a k) ∧ k = 16 ∧ s.answers = some .ok :: rest ∧
      t.cfg = some ⟨w, h, a⟩) ∧
    ((t.draws = s.draws ∧ t.fb.size = s.fb.size ∧ ∀ x, t.fb.read x = s.fb.read x) ∨
      ∃ w h a k rest, s.op = some (.init w h a k) ∧ s.answers = some .transportError :: rest)

/-- R42, R43, R58, R73: a frame the block would not produce at this point has no meaning there: a command, CMD_FRAME or one of
the 17 named, that is not the entry that is due, a payload that is not the chunk that is due (the stop is the model's, log 12). -/
def Obligations.FramesOnlyWhereDue : Prop :=
  (∀ (i : Instr) (b : Build) (opcode : Byte) (operands : List Byte) (s : State),
    encode b i = .frame (0x00 :: opcode :: operands) →
    (¬∃ w h a k, s.op = some (.init w h a k) ∧ s.build.initSeq[k]? = some ⟨opcode, operands⟩) →
    exec i s = .refused .frameNotDue) ∧
  (∀ (p : List Byte) (s : State),
    (¬∃ o c, s.op = some (.flush o) ∧ s.cfg = some c ∧ o < s.fb.size ∧
      p = s.fb.slice o (min (o + s.build.chunk) s.fb.size)) →
    exec (.dataFrame p) s = .refused .frameNotDue)

/-- R91: exactly the instructions whose bus write the transport fails end with `TransportError`; the failed write is the last
of the operation, which is over. -/
def Obligations.TransportErrorExactlyOnFailedWrite : Prop :=
  ∀ (i : Instr) (s t : State), exec i s = .next t →
    ((t.results = s.results ++ [.error .transportError]) ↔
      ∃ r, t.history = s.history ++ [r] ∧ r.answer = .transportError) ∧
    (t.results = s.results ++ [.error .transportError] → t.op = none ∧ t.cfg = s.cfg)

/-- R99, R95: errors go to the one host, and there is no level to delegate them to. Three clauses. Whichever instruction ends with
an error, the operation is over, the error is the one result added, and but for what R95 lets happen before it (the failed write
in `H`, the transport's answer, R60's `fb` with its counter of free values) everything is as before: nothing is saved, marked,
masked or routed. Both errors reach the host: an invalid INIT on an unconfigured block (R90), and, at the very step of its
answer, every failed write of an INIT or a SHOW (R91). That the host's view is the list of results and the transport's the list of
answers is the model's choice (log 8, log 16). -/
def Obligations.ErrorsGoToTheOneHost : Prop :=
  (∀ (i : Instr) (s t : State) (e : BlockError), exec i s = .next t → t.results = s.results ++ [.error e] →
    t = { s with
      op := none
      results := s.results ++ [.error e]
      history := t.history
      answers := t.answers
      fb := t.fb
      draws := t.draws }) ∧
  (∀ (s : State) (w h : Int) (a : DeviceAddress), s.op = none → s.cfg = none → ¬ValidDims w h →
    ∃ t, exec (.init w h a) s = .next t ∧ t.results = s.results ++ [.error .configError]) ∧
  (∀ (s : State) (rest : List (Option Answer)), Inv s → s.op.isSome = true → s.noReset = true →
    s.answers = some .transportError :: rest →
    ∃ t, step s = .next t ∧ t.results = s.results ++ [.error .transportError] ∧ t.op = none ∧ t.cfg = s.cfg ∧
      t.refusals = s.refusals ∧ t.answers = rest)

/-! ## Page address generator and SET_PIXEL -/

/-- R63: PAG's result is in range, gives the coordinate back, and is a bijection between the pixels and the bits of `fb`. -/
def Obligations.PagIsBijective : Prop :=
  ∀ w h : Int, ValidDims w h →
    (∀ x y p, pag x y w h = some p →
      (p.page : Int) < h / 8 ∧ p.bit ≤ 7 ∧ (p.index : Int) < h / 8 * w ∧ 8 * (p.page : Int) + p.bit = y ∧
      (p.index : Int) % w = x ∧ (p.index : Int) / w = p.page) ∧
    (∀ x y x' y' p p', pag x y w h = some p → pag x' y' w h = some p' → p.index = p'.index → p.bit = p'.bit →
      x = x' ∧ y = y') ∧
    (∀ index bit : Nat, (index : Int) < h / 8 * w → bit ≤ 7 →
      ∃ x y p, pag x y w h = some p ∧ p.index = index ∧ p.bit = bit)

/-- R64, in range: one byte is read and written back with the bit set or cleared, every other byte is unchanged, and so is
the rest of the state but the result `OK`. -/
def Obligations.SetPixelInRange : Prop :=
  ∀ (s : State) (c : DisplayConfig) (x y : Int) (color : Color), Inv s → s.op = none → s.cfg = some c → InRange c x y →
    ∃ m old, s.fb.read (y / 8 * c.width + x).toNat = some old ∧
      exec (.setPixel x y color) s = .next { s with fb := m, results := s.results ++ [.ok] } ∧
      m.size = s.fb.size ∧
      m.read (y / 8 * c.width + x).toNat =
        some (if color = .on then old ||| (1#8 <<< (y % 8).toNat) else old &&& ~~~(1#8 <<< (y % 8).toNat)) ∧
      ∀ i, i ≠ (y / 8 * c.width + x).toNat → m.read i = s.fb.read i

/-- R65: out of range nothing changes and the result is `OK`. -/
def Obligations.SetPixelOutOfRangeChangesNothing : Prop :=
  ∀ (s : State) (c : DisplayConfig) (x y : Int) (color : Color), s.op = none → s.cfg = some c → ¬InRange c x y →
    exec (.setPixel x y color) s = .next { s with results := s.results ++ [.ok] }

/-- R66: SET_PIXEL changes at most its own bit; the pixel then has the colour; it is idempotent; on then off reads off. -/
def Obligations.SetPixelNoBleed : Prop :=
  ∀ (s : State) (c : DisplayConfig) (x y : Int) (color : Color), Inv s → s.op = none → s.cfg = some c → InRange c x y →
    ∃ t, exec (.setPixel x y color) s = .next t ∧ pixel c t.fb x y = some (decide (color = .on)) ∧
      (∀ i b, (i, b) ≠ ((y / 8 * c.width + x).toNat, (y % 8).toNat) →
        (t.fb.read i).map (·.getLsbD b) = (s.fb.read i).map (·.getLsbD b)) ∧
      (∃ u, exec (.setPixel x y color) t = .next u ∧ u.fb = t.fb) ∧
      (∃ u, exec (.setPixel x y .off) t = .next u ∧ pixel c u.fb x y = some false ∧
        ∀ x' y', InRange c x' y' → (x', y') ≠ (x, y) → pixel c u.fb x' y' = pixel c s.fb x' y')

/-- R68, R72, R87: SET_PIXEL, FILL and DRAW_TEXT make no bus write and cannot fail: but for the framebuffer's bytes only the
result `OK` is added (or, unconfigured, the mark of the refusal, the model's choice, log 6). -/
def Obligations.DrawingMakesNoBusWrite : Prop :=
  ∀ (s t : State) (i : Instr), s.op = none →
    ((∃ x y color, i = .setPixel x y color) ∨ (∃ color, i = .fill color) ∨
      (∃ string x y color, i = .drawText string x y color)) →
    exec i s = .next t →
    t.fb.size = s.fb.size ∧
    ((s.cfg.isSome = true ∧ t = { s with fb := t.fb, results := s.results ++ [.ok] }) ∨
     (s.cfg = none ∧ t = { s with refusals := s.refusals ++ [.unconfigured] }))

/-! ## FILL -/

/-- R69: every byte becomes 0xFF for on, 0x00 for off; the length stays; nothing else changes but the result `OK`. -/
def Obligations.FillReplacesEveryByte : Prop :=
  ∀ (s : State) (c : DisplayConfig) (color : Color), s.op = none → s.cfg = some c →
    ∃ m, exec (.fill color) s = .next { s with fb := m, results := s.results ++ [.ok] } ∧ m.wf = true ∧
      m.bytes = List.replicate s.fb.size (if color = .on then 0xFF else 0x00)

/-- R70: FILL is exactly SET_PIXEL for every coordinate, in whatever order and however often: the same `fb`. -/
def Obligations.FillEqualsEverySetPixel : Prop :=
  ∀ (s : State) (c : DisplayConfig) (color : Color), Inv s → s.op = none → s.cfg = some c →
    ∃ t, exec (.fill color) s = .next t ∧
      (∀ x y, InRange c x y → pixel c t.fb x y = some (decide (color = .on))) ∧
      ∀ pts : List (Int × Int), (∀ x y, InRange c x y → (x, y) ∈ pts) →
        ∃ u, execAll (pts.map fun p => .setPixel p.1 p.2 color) s = .next u ∧ u.fb = t.fb

/-- R71: FILL twice is FILL once, FILL after another FILL leaves the later pattern, and FILL does not depend on the previous
contents: from any framebuffer of the same length it leaves the same one. -/
def Obligations.FillIsIdempotent : Prop :=
  ∀ (s : State) (c : DisplayConfig) (color before : Color), s.op = none → s.cfg = some c →
    ∃ t u v w, exec (.fill color) s = .next t ∧ exec (.fill color) t = .next u ∧ u.fb = t.fb ∧
      exec (.fill before) s = .next v ∧ exec (.fill color) v = .next w ∧ w.fb = t.fb ∧
      ∀ m : Memory, m.size = s.fb.size → ∃ z, exec (.fill color) { s with fb := m } = .next z ∧ z.fb = t.fb

/-! ## SHOW -/

/-- R73: SHOW on a configured block begins its walk at offset 0 and changes nothing else. -/
def Obligations.ShowStartsAtOffsetZero : Prop :=
  ∀ (s : State) (c : DisplayConfig), Inv s → s.op = none → s.cfg = some c →
    exec .showFb s = .next { s with op := some (.flush 0) }

/-- R43, R73: the data frame at offset `o` is one write of 0x40 and `fb[o : min(o + CHUNK, len))` to `cfg.addr`; answered `Ok`,
SHOW goes on after it or ends `OK`. -/
def Obligations.DataFrameWritesTheChunk : Prop :=
  ∀ (s : State) (c : DisplayConfig) (o e : Nat) (rest : List (Option Answer)), s.op = some (.flush o) → s.cfg = some c →
    o < s.fb.size → e = min (o + s.build.chunk) s.fb.size → s.answers = some .ok :: rest →
    (e < s.fb.size → exec (.dataFrame (s.fb.slice o e)) s = .next { s with
      answers := rest, history := s.history ++ [⟨c.addr, 0x40 :: s.fb.slice o e, .ok⟩], op := some (.flush e) }) ∧
    (e = s.fb.size → exec (.dataFrame (s.fb.slice o e)) s = .next { s with
      answers := rest, history := s.history ++ [⟨c.addr, 0x40 :: s.fb.slice o e, .ok⟩], op := none,
      results := s.results ++ [.ok] })

/-- R74: the payloads of one SHOW: as many as `ceil(L / CHUNK)`, all `CHUNK` bytes but the last, which has between 1 and
`CHUNK`; together they are `fb`, byte for byte, in order. -/
def Obligations.ChunksTileTheFramebuffer : Prop :=
  ∀ s : State, 0 < s.fb.size →
    (s.payloads.length = (s.fb.size + s.build.chunk - 1) / s.build.chunk) ∧
    (∀ m p, s.payloads[m]? = some p →
      p = s.fb.slice (m * s.build.chunk) (min ((m + 1) * s.build.chunk) s.fb.size) ∧
      (m + 1 < s.payloads.length → p.length = s.build.chunk) ∧
      (m + 1 = s.payloads.length → p.length = s.fb.size - m * s.build.chunk ∧ 1 ≤ p.length ∧ p.length ≤ s.build.chunk)) ∧
    s.payloads.flatten = s.fb.bytes

/-- R75: for every `CHUNK` (and every instance), a SHOW that ends `OK`, after whatever waits (`none`), extends
`DataStream(H)` by exactly `fb`; its writes are the data frames of R74 and nothing else, and neither `fb` nor `cfg`
changes. The host applies no reset meanwhile: it may be quiet, and a request it issues is held (log 9). The transport's waits are
the model's (log 8). -/
def Obligations.ShowSendsExactlyTheFramebuffer : Prop :=
  ∀ (s : State) (c : DisplayConfig) (l rest : List (Option Answer)), Inv s → s.op = none → s.cfg = some c →
    s.noResetWithin l.length → s.answers = l ++ rest → l.filterMap id = List.replicate s.chunkCount .ok →
    l.getLast? = some (some .ok) →
    ∃ s₁ t, exec .showFb s = .next s₁ ∧ steps l.length s₁ = .next t ∧
      t = { s with
        answers := rest
        inbox := s.inbox.drop l.length
        held := s.held ++ arrivals (s.inbox.take l.length)
        history := s.history ++ s.payloads.map fun p => ⟨c.addr, 0x40 :: p, .ok⟩
        results := s.results ++ [.ok] } ∧
      dataStream t.history = dataStream s.history ++ s.fb.bytes

/-- R78: a `TransportError` at write `m` stops SHOW at once; the writes before it were made, none follows, the block's state is
untouched and the block is ready again. The host applies no reset meanwhile: it may be quiet, and a request it issues is held
(log 9). The transport may wait before each answer (log 8). -/
def Obligations.ShowStopsAtFailedChunk : Prop :=
  ∀ (s : State) (c : DisplayConfig) (m : Nat) (p : List Byte) (l rest : List (Option Answer)), Inv s → s.op = none →
    s.cfg = some c → s.noResetWithin (l.length + 1) → s.payloads[m]? = some p →
    s.answers = l ++ some .transportError :: rest → l.filterMap id = List.replicate m .ok →
    ∃ s₁ t, exec .showFb s = .next s₁ ∧ steps (l.length + 1) s₁ = .next t ∧
      t = { s with
        answers := rest
        inbox := s.inbox.drop (l.length + 1)
        held := s.held ++ arrivals (s.inbox.take (l.length + 1))
        history := s.history ++ ((s.payloads.take m).map fun p => ⟨c.addr, 0x40 :: p, .ok⟩) ++
          [⟨c.addr, 0x40 :: p, .transportError⟩]
        results := s.results ++ [.error .transportError] }

/-- R77: while SHOW is in progress, whatever the transport answers, `fb` and `cfg` do not change. -/
def Obligations.ShowLeavesTheBlockAlone : Prop :=
  ∀ (s t : State) (o : Nat), s.op = some (.flush o) → s.noReset = true → step s = .next t →
    t.cfg = s.cfg ∧ t.fb.size = s.fb.size ∧ (∀ i, t.fb.read i = s.fb.read i) ∧ t.build = s.build ∧
      t.refusals = s.refusals ∧ t.draws = s.draws

/-! ## DRAW_TEXT -/

/-- R54, R83: DRAW_TEXT is exactly a sequence of SET_PIXEL operations: for each character in order, for each set bit of its
glyph, rows then columns, at `(cx + j, y + i)`; only the results differ (one `OK` instead of one each). -/
def Obligations.DrawTextIsASequenceOfSetPixels : Prop :=
  ∀ (s : State) (c : DisplayConfig) (string : List CharCode) (x y : Int) (color : Color), Inv s → s.op = none →
    s.cfg = some c →
    ∃ t u, exec (.drawText string x y color) s = .next t ∧
      execAll ((textPixels s.build string x y).map fun p => .setPixel p.1 p.2 color) s = .next u ∧
      t = { u with results := s.results ++ [.ok] }

/-- R85, R86, R88: the net effect. Bit `j` of row `i` of the glyph of character `n`, where it is set, names the pixel
`(x + 8 n + j, y + i)`; every in-range pixel so named becomes the colour, every other pixel is unchanged, and so is every byte no pixel of the text lives
in. -/
def Obligations.DrawTextNetEffect : Prop :=
  ∀ (s : State) (c : DisplayConfig) (string : List CharCode) (x y : Int) (color : Color), Inv s → s.op = none →
    s.cfg = some c →
    ∃ m, exec (.drawText string x y color) s = .next { s with fb := m, results := s.results ++ [.ok] } ∧
      m.size = s.fb.size ∧
      (∀ a, (∀ q ∈ textPixels s.build string x y, ∀ p, pag q.1 q.2 c.width c.height = some p → p.index ≠ a) →
        m.read a = s.fb.read a) ∧
      ∀ px py, InRange c px py →
        ((∃ (n : Nat) (code : CharCode) (g : Glyph) (i : Fin 8) (j : Nat), string[n]? = some code ∧
            s.build.font.lookup code = some g ∧ j < 8 ∧ (g.get i).getLsbD j = true ∧
            px = x + 8 * (n : Int) + (j : Int) ∧ py = y + (i.val : Int)) →
          pixel c m px py = some (decide (color = .on))) ∧
        ((¬∃ (n : Nat) (code : CharCode) (g : Glyph) (i : Fin 8) (j : Nat), string[n]? = some code ∧
            s.build.font.lookup code = some g ∧ j < 8 ∧ (g.get i).getLsbD j = true ∧
            px = x + 8 * (n : Int) + (j : Int) ∧ py = y + (i.val : Int)) →
          pixel c m px py = pixel c s.fb px py)

/-- R86: the order of the SET_PIXELs of one colour does not matter. -/
def Obligations.SetPixelOrderIsUnobservable : Prop :=
  ∀ (s : State) (c : DisplayConfig) (color : Color) (l l' : List (Int × Int)), Inv s → s.op = none → s.cfg = some c →
    l.Perm l' →
    ∃ t t', execAll (l.map fun p => .setPixel p.1 p.2 color) s = .next t ∧
      execAll (l'.map fun p => .setPixel p.1 p.2 color) s = .next t' ∧ t.fb = t'.fb

/-- R84: a character without a glyph, or with a glyph of zeros, changes no bit, and the cursor still advances by 8. -/
def Obligations.BlankCharacterOnlyAdvancesTheCursor : Prop :=
  ∀ (s : State) (c : DisplayConfig) (code : CharCode) (rest : List CharCode) (x y : Int) (color : Color),
    s.op = none → s.cfg = some c → blankChar s.build code →
    exec (.drawText [code] x y color) s = .next { s with results := s.results ++ [.ok] } ∧
    exec (.drawText (code :: rest) x y color) s = exec (.drawText rest (x + 8) y color) s

/-! ## Refusals -/

/-- R102: SET_PIXEL, FILL, SHOW and DRAW_TEXT on an unconfigured block are refused: no state changes, no bus write, no result.
That the run goes on with a mark is the model's choice (log 6). -/
def Obligations.UnconfiguredOperationsAreRefused : Prop :=
  ∀ (s : State) (string : List CharCode) (x y : Int) (color : Color), s.op = none → s.cfg = none →
    exec (.setPixel x y color) s = .next { s with refusals := s.refusals ++ [.unconfigured] } ∧
    exec (.fill color) s = .next { s with refusals := s.refusals ++ [.unconfigured] } ∧
    exec .showFb s = .next { s with refusals := s.refusals ++ [.unconfigured] } ∧
    exec (.drawText string x y color) s = .next { s with refusals := s.refusals ++ [.unconfigured] }

/-- R50, R102: the operation codes 101, 110 and 111 are refused, configured or not: no state changes, no bus write, no result.
That the run goes on with a mark is the model's choice (log 6). -/
def Obligations.ReservedCodesAreRefused : Prop :=
  ∀ s : State, s.op = none →
    exec .reserved101 s = .next { s with refusals := s.refusals ++ [.reservedCode 0b101] } ∧
    exec .reserved110 s = .next { s with refusals := s.refusals ++ [.reservedCode 0b110] } ∧
    exec .reserved111 s = .next { s with refusals := s.refusals ++ [.reservedCode 0b111] }

/-- R102: whichever request is refused, the mark is all that changes. -/
def Obligations.RefusedRequestChangesNothing : Prop :=
  ∀ (i : Instr) (s t : State) (why : RefusedRequest), exec i s = .next t → t.refusals = s.refusals ++ [why] →
    t = { s with refusals := s.refusals ++ [why] }

/-! ## What cannot be observed -/

/-- R24: on a configured block `cfg` and `fb` after a step do not depend on the transport's answers. -/
def Obligations.FramebufferIgnoresTheTransport : Prop :=
  ∀ (s t t' : State) (c : DisplayConfig) (answers : List (Option Answer)), Inv s → s.cfg = some c → s.noReset = true →
    step s = .next t → step { s with answers := answers } = .next t' → t.cfg = t'.cfg ∧ t.fb = t'.fb

/-- R23, R103 (U9): while the block is unconfigured and idle its `fb` is unobservable: an instruction executed on two states that
differ in `fb` only gives the same outcome but for `fb`, and the same `fb` too once INIT has allocated it. -/
def Obligations.UnconfiguredFramebufferIsUnobservable : Prop :=
  ∀ (i : Instr) (s t : State) (m : Memory), s.op = none → s.cfg = none → exec i s = .next t →
    ∃ t', exec i { s with fb := m } = .next t' ∧ { t' with fb := t.fb } = t ∧ (t.op.isSome = true → t' = t)

/-! ## Reset frees the block -/

/-- R104, R112: a reset is taken at the very step at which the host applies it, whatever is in progress, whatever requests are
held or come before it, and whatever the transport does, also if it never answers: after as many steps as events stand before it,
the next step leaves the block unconfigured, with no operation in progress and no bus write made. That each step uses up one event
of the host is the model's choice (log 9). -/
def Obligations.ResetFreesTheBlock : Prop :=
  ∀ (s : State) (before rest : List HostEvent), Inv s → s.inbox = before ++ .reset :: rest →
    ∃ u t, steps before.length s = .next u ∧ step u = .next t ∧ t.cfg = none ∧ t.op = none ∧ t.history = [] ∧
      t.answers = u.answers ∧ t.inbox = rest
end

