-- ==== Sys2Proof/Laws/State.lean ====
section
/-! SUPPORT. One lemma per field per named update of State. -/

namespace Sys2Proof.Machine

variable (s : State)

@[simp] theorem State.endWith_cfg (r : Result) : (s.endWith r).cfg = s.cfg := rfl
@[simp] theorem State.endWith_fb (r : Result) : (s.endWith r).fb = s.fb := rfl
@[simp] theorem State.endWith_op (r : Result) : (s.endWith r).op = none := rfl
@[simp] theorem State.endWith_held (r : Result) : (s.endWith r).held = s.held := rfl
@[simp] theorem State.endWith_history (r : Result) : (s.endWith r).history = s.history := rfl
@[simp] theorem State.endWith_results (r : Result) : (s.endWith r).results = s.results ++ [r] := rfl
@[simp] theorem State.endWith_refusals (r : Result) : (s.endWith r).refusals = s.refusals := rfl
@[simp] theorem State.endWith_inbox (r : Result) : (s.endWith r).inbox = s.inbox := rfl
@[simp] theorem State.endWith_answers (r : Result) : (s.endWith r).answers = s.answers := rfl
@[simp] theorem State.endWith_build (r : Result) : (s.endWith r).build = s.build := rfl
@[simp] theorem State.endWith_draws (r : Result) : (s.endWith r).draws = s.draws := rfl

@[simp] theorem State.answered_cfg (rest : List (Option Answer)) (r : BusRecord) : (s.answered rest r).cfg = s.cfg := rfl
@[simp] theorem State.answered_fb (rest : List (Option Answer)) (r : BusRecord) : (s.answered rest r).fb = s.fb := rfl
@[simp] theorem State.answered_op (rest : List (Option Answer)) (r : BusRecord) : (s.answered rest r).op = s.op := rfl
@[simp] theorem State.answered_held (rest : List (Option Answer)) (r : BusRecord) : (s.answered rest r).held = s.held := rfl
@[simp] theorem State.answered_history (rest : List (Option Answer)) (r : BusRecord) : (s.answered rest r).history = s.history ++ [r] := rfl
@[simp] theorem State.answered_results (rest : List (Option Answer)) (r : BusRecord) : (s.answered rest r).results = s.results := rfl
@[simp] theorem State.answered_refusals (rest : List (Option Answer)) (r : BusRecord) : (s.answered rest r).refusals = s.refusals := rfl
@[simp] theorem State.answered_inbox (rest : List (Option Answer)) (r : BusRecord) : (s.answered rest r).inbox = s.inbox := rfl
@[simp] theorem State.answered_answers (rest : List (Option Answer)) (r : BusRecord) : (s.answered rest r).answers = rest := rfl
@[simp] theorem State.answered_build (rest : List (Option Answer)) (r : BusRecord) : (s.answered rest r).build = s.build := rfl
@[simp] theorem State.answered_draws (rest : List (Option Answer)) (r : BusRecord) : (s.answered rest r).draws = s.draws := rfl

@[simp] theorem State.refuse_cfg (why : RefusedRequest) : (s.refuse why).cfg = s.cfg := rfl
@[simp] theorem State.refuse_fb (why : RefusedRequest) : (s.refuse why).fb = s.fb := rfl
@[simp] theorem State.refuse_op (why : RefusedRequest) : (s.refuse why).op = s.op := rfl
@[simp] theorem State.refuse_held (why : RefusedRequest) : (s.refuse why).held = s.held := rfl
@[simp] theorem State.refuse_history (why : RefusedRequest) : (s.refuse why).history = s.history := rfl
@[simp] theorem State.refuse_results (why : RefusedRequest) : (s.refuse why).results = s.results := rfl
@[simp] theorem State.refuse_refusals (why : RefusedRequest) : (s.refuse why).refusals = s.refusals ++ [why] := rfl
@[simp] theorem State.refuse_inbox (why : RefusedRequest) : (s.refuse why).inbox = s.inbox := rfl
@[simp] theorem State.refuse_answers (why : RefusedRequest) : (s.refuse why).answers = s.answers := rfl
@[simp] theorem State.refuse_build (why : RefusedRequest) : (s.refuse why).build = s.build := rfl
@[simp] theorem State.refuse_draws (why : RefusedRequest) : (s.refuse why).draws = s.draws := rfl

@[simp] theorem State.applyReset_cfg (rest : List HostEvent) : (s.applyReset rest).cfg = none := rfl
@[simp] theorem State.applyReset_fb (rest : List HostEvent) : (s.applyReset rest).fb = ⟨0, []⟩ := rfl
@[simp] theorem State.applyReset_op (rest : List HostEvent) : (s.applyReset rest).op = none := rfl
@[simp] theorem State.applyReset_held (rest : List HostEvent) : (s.applyReset rest).held = s.held := rfl
@[simp] theorem State.applyReset_history (rest : List HostEvent) : (s.applyReset rest).history = [] := rfl
@[simp] theorem State.applyReset_results (rest : List HostEvent) : (s.applyReset rest).results = [] := rfl
@[simp] theorem State.applyReset_refusals (rest : List HostEvent) : (s.applyReset rest).refusals = [] := rfl
@[simp] theorem State.applyReset_inbox (rest : List HostEvent) : (s.applyReset rest).inbox = rest := rfl
@[simp] theorem State.applyReset_answers (rest : List HostEvent) : (s.applyReset rest).answers = s.answers := rfl
@[simp] theorem State.applyReset_build (rest : List HostEvent) : (s.applyReset rest).build = s.build := rfl
@[simp] theorem State.applyReset_draws (rest : List HostEvent) : (s.applyReset rest).draws = s.draws := rfl

@[simp] theorem State.configured_cfg (w h : Int) (a : DeviceAddress) : (s.configured w h a).cfg = some ⟨w, h, a⟩ := rfl
@[simp] theorem State.configured_fb (w h : Int) (a : DeviceAddress) : (s.configured w h a).fb = s.fb := rfl
@[simp] theorem State.configured_op (w h : Int) (a : DeviceAddress) : (s.configured w h a).op = none := rfl
@[simp] theorem State.configured_held (w h : Int) (a : DeviceAddress) : (s.configured w h a).held = s.held := rfl
@[simp] theorem State.configured_history (w h : Int) (a : DeviceAddress) : (s.configured w h a).history = s.history := rfl
@[simp] theorem State.configured_results (w h : Int) (a : DeviceAddress) : (s.configured w h a).results = s.results ++ [.ok] := rfl
@[simp] theorem State.configured_refusals (w h : Int) (a : DeviceAddress) : (s.configured w h a).refusals = s.refusals := rfl
@[simp] theorem State.configured_inbox (w h : Int) (a : DeviceAddress) : (s.configured w h a).inbox = s.inbox := rfl
@[simp] theorem State.configured_answers (w h : Int) (a : DeviceAddress) : (s.configured w h a).answers = s.answers := rfl
@[simp] theorem State.configured_build (w h : Int) (a : DeviceAddress) : (s.configured w h a).build = s.build := rfl
@[simp] theorem State.configured_draws (w h : Int) (a : DeviceAddress) : (s.configured w h a).draws = s.draws := rfl

@[simp] theorem State.initFailed_cfg : (s.initFailed).cfg = s.cfg := rfl
@[simp] theorem State.initFailed_fb : (s.initFailed).fb = Memory.ofBytes (Config.freeFramebuffer s.draws) := rfl
@[simp] theorem State.initFailed_op : (s.initFailed).op = none := rfl
@[simp] theorem State.initFailed_held : (s.initFailed).held = s.held := rfl
@[simp] theorem State.initFailed_history : (s.initFailed).history = s.history := rfl
@[simp] theorem State.initFailed_results : (s.initFailed).results = s.results ++ [.error .transportError] := rfl
@[simp] theorem State.initFailed_refusals : (s.initFailed).refusals = s.refusals := rfl
@[simp] theorem State.initFailed_inbox : (s.initFailed).inbox = s.inbox := rfl
@[simp] theorem State.initFailed_answers : (s.initFailed).answers = s.answers := rfl
@[simp] theorem State.initFailed_build : (s.initFailed).build = s.build := rfl
@[simp] theorem State.initFailed_draws : (s.initFailed).draws = s.draws + 1 := rfl

/-- Completing is ending with `OK`. -/
@[simp] theorem State.complete_eq : s.complete = s.endWith .ok := rfl

/-- Raising is ending with the error. -/
@[simp] theorem State.raise_eq (e : BlockError) : s.raise e = s.endWith (.error e) := rfl

@[simp] theorem State.hold_cfg (i : Instr) : (s.hold i).cfg = s.cfg := by
  unfold State.hold; (repeat' split) <;> rfl
@[simp] theorem State.hold_fb (i : Instr) : (s.hold i).fb = s.fb := by
  unfold State.hold; (repeat' split) <;> rfl
@[simp] theorem State.hold_op (i : Instr) : (s.hold i).op = s.op := by
  unfold State.hold; (repeat' split) <;> rfl
@[simp] theorem State.hold_history (i : Instr) : (s.hold i).history = s.history := by
  unfold State.hold; (repeat' split) <;> rfl
@[simp] theorem State.hold_results (i : Instr) : (s.hold i).results = s.results := by
  unfold State.hold; (repeat' split) <;> rfl
@[simp] theorem State.hold_refusals (i : Instr) : (s.hold i).refusals = s.refusals := by
  unfold State.hold; (repeat' split) <;> rfl
@[simp] theorem State.hold_inbox (i : Instr) : (s.hold i).inbox = s.inbox := by
  unfold State.hold; (repeat' split) <;> rfl
@[simp] theorem State.hold_answers (i : Instr) : (s.hold i).answers = s.answers := by
  unfold State.hold; (repeat' split) <;> rfl
@[simp] theorem State.hold_build (i : Instr) : (s.hold i).build = s.build := by
  unfold State.hold; (repeat' split) <;> rfl
@[simp] theorem State.hold_draws (i : Instr) : (s.hold i).draws = s.draws := by
  unfold State.hold; (repeat' split) <;> rfl

@[simp] theorem State.afterHost_cfg (n : Nat) : (s.afterHost n).cfg = s.cfg := rfl
@[simp] theorem State.afterHost_fb (n : Nat) : (s.afterHost n).fb = s.fb := rfl
@[simp] theorem State.afterHost_op (n : Nat) : (s.afterHost n).op = s.op := rfl
@[simp] theorem State.afterHost_history (n : Nat) : (s.afterHost n).history = s.history := rfl
@[simp] theorem State.afterHost_results (n : Nat) : (s.afterHost n).results = s.results := rfl
@[simp] theorem State.afterHost_refusals (n : Nat) : (s.afterHost n).refusals = s.refusals := rfl
@[simp] theorem State.afterHost_answers (n : Nat) : (s.afterHost n).answers = s.answers := rfl
@[simp] theorem State.afterHost_build (n : Nat) : (s.afterHost n).build = s.build := rfl
@[simp] theorem State.afterHost_draws (n : Nat) : (s.afterHost n).draws = s.draws := rfl
@[simp] theorem State.afterHost_inbox (n : Nat) : (s.afterHost n).inbox = s.inbox.drop n := rfl
@[simp] theorem State.afterHost_held (n : Nat) : (s.afterHost n).held = s.held ++ arrivals (s.inbox.take n) := rfl

@[simp] theorem State.takeInput_cfg : (s.takeInput).cfg = s.cfg := rfl
@[simp] theorem State.takeInput_fb : (s.takeInput).fb = s.fb := rfl
@[simp] theorem State.takeInput_op : (s.takeInput).op = s.op := rfl
@[simp] theorem State.takeInput_history : (s.takeInput).history = s.history := rfl
@[simp] theorem State.takeInput_results : (s.takeInput).results = s.results := rfl
@[simp] theorem State.takeInput_refusals : (s.takeInput).refusals = s.refusals := rfl
@[simp] theorem State.takeInput_answers : (s.takeInput).answers = s.answers := rfl
@[simp] theorem State.takeInput_build : (s.takeInput).build = s.build := rfl
@[simp] theorem State.takeInput_draws : (s.takeInput).draws = s.draws := rfl
@[simp] theorem State.takeInput_inbox : (s.takeInput).inbox = s.inbox.drop 1 := rfl
@[simp] theorem State.takeInput_held : (s.takeInput).held = s.held ++ arrivals (s.inbox.take 1) := rfl

@[simp] theorem State.accept_cfg : (s.accept).cfg = s.cfg := rfl
@[simp] theorem State.accept_fb : (s.accept).fb = s.fb := rfl
@[simp] theorem State.accept_op : (s.accept).op = s.op := rfl
@[simp] theorem State.accept_history : (s.accept).history = s.history := rfl
@[simp] theorem State.accept_results : (s.accept).results = s.results := rfl
@[simp] theorem State.accept_refusals : (s.accept).refusals = s.refusals := rfl
@[simp] theorem State.accept_inbox : (s.accept).inbox = s.inbox := rfl
@[simp] theorem State.accept_answers : (s.accept).answers = s.answers := rfl
@[simp] theorem State.accept_build : (s.accept).build = s.build := rfl
@[simp] theorem State.accept_draws : (s.accept).draws = s.draws := rfl

/-- A busy block accepts nothing. -/
theorem State.accept_busy {s : State} (h : s.op.isSome = true) : s.accept = s := by
  have hn : s.op.isNone = false := by cases hop : s.op <;> simp_all
  simp [State.accept, hn]

/-- An idle block accepts the oldest request. -/
theorem State.accept_idle {s : State} (h : s.op = none) : s.accept = { s with held := s.held.tail } := by
  simp [State.accept, h]

@[simp] theorem arrivals_append (l l' : List HostEvent) : arrivals (l ++ l') = arrivals l ++ arrivals l' := by
  simp [arrivals]

@[simp] theorem State.afterHost_zero : s.afterHost 0 = s := by
  simp [State.afterHost, arrivals]

/-- The host's part of `m + n` steps is its part of `m`, then of `n`. -/
theorem State.afterHost_add (m n : Nat) : (s.afterHost m).afterHost n = s.afterHost (m + n) := by
  simp [State.afterHost, List.take_add]

end Sys2Proof.Machine
end

