-- ==== Sys2Proof/Laws/Memory.lean ====
section
/-! SUPPORT. The laws of the framebuffer as memory: every operation keeps the canonical form, a read after a write gives the
value written and leaves every other byte alone, and canonical framebuffers that read alike are equal. -/

namespace Sys2Proof.Machine

theorem cellsWf_mono {lo lo' hi : Nat} (h : lo' ≤ lo) :
    ∀ l : List Host.Cell, cellsWf lo hi l = true → cellsWf lo' hi l = true
  | [], _ => rfl
  | (a, v) :: rest, hw => by
    simp only [cellsWf, Bool.and_eq_true, decide_eq_true_eq] at hw ⊢
    exact ⟨⟨⟨h.trans hw.1.1.1, hw.1.1.2⟩, hw.1.2⟩, hw.2⟩

/-- Canonical cells list nothing below their lower bound. -/
theorem cellAt_below {lo hi : Nat} : ∀ (l : List Host.Cell) (a : Nat),
    cellsWf lo hi l = true → a < lo → cellAt l a = blankByte
  | [], _, _, _ => rfl
  | (b, v) :: rest, a, hw, ha => by
    simp only [cellsWf, Bool.and_eq_true, decide_eq_true_eq] at hw
    have hne : b ≠ a := by omega
    simp only [cellAt, hne, if_false]
    exact cellAt_below rest a hw.2 (by omega)

/-- A write keeps the canonical form. -/
theorem cellPut_wf {hi : Nat} (a : Nat) (v : Byte) (ha : a < hi) : ∀ (l : List Host.Cell) (lo : Nat),
    cellsWf lo hi l = true → lo ≤ a → cellsWf lo hi (cellPut l a v) = true
  | [], lo, _, hlo => by
    unfold cellPut; split <;> simp_all [cellsWf]
  | (b, w) :: rest, lo, hw, hlo => by
    have hw' := hw
    simp only [cellsWf, Bool.and_eq_true, decide_eq_true_eq] at hw'
    obtain ⟨⟨⟨h1, h2⟩, h3⟩, h4⟩ := hw'
    unfold cellPut
    split
    · split
      · exact hw
      · have hv : v ≠ blankByte := by assumption
        simp only [cellsWf, Bool.and_eq_true, decide_eq_true_eq]
        exact ⟨⟨⟨hlo, ha⟩, hv⟩, ⟨⟨by omega, h2⟩, h3⟩, h4⟩
    · split
      · split
        · exact cellsWf_mono (by omega) rest h4
        · have hv : v ≠ blankByte := by assumption
          simp only [cellsWf, Bool.and_eq_true, decide_eq_true_eq]
          have hab : a = b := by assumption
          exact ⟨⟨⟨hlo, ha⟩, hv⟩, hab ▸ h4⟩
      · simp only [cellsWf, Bool.and_eq_true, decide_eq_true_eq]
        exact ⟨⟨⟨h1, h2⟩, h3⟩, cellPut_wf a v ha rest (b + 1) h4 (by omega)⟩

/-- Read after write, on canonical cells. -/
theorem cellAt_cellPut {hi : Nat} (a : Nat) (v : Byte) (x : Nat) : ∀ (l : List Host.Cell) (lo : Nat),
    cellsWf lo hi l = true → cellAt (cellPut l a v) x = if x = a then v else cellAt l x
  | [], lo, _ => by
    unfold cellPut; split
    · by_cases h : x = a <;> simp_all [cellAt]
    · by_cases h : x = a
      · simp [cellAt, h]
      · have : ¬a = x := fun e => h e.symm
        simp [cellAt, h, this]
  | (b, w) :: rest, lo, hw => by
    have hw' := hw
    simp only [cellsWf, Bool.and_eq_true, decide_eq_true_eq] at hw'
    have htail := hw'.2
    have ih := cellAt_cellPut a v x rest (b + 1) htail
    unfold cellPut
    split
    · have hbelow : cellAt ((b, w) :: rest) a = blankByte := by
        have : cellsWf b hi ((b, w) :: rest) = true := by
          simp only [cellsWf, Bool.and_eq_true, decide_eq_true_eq]
          exact ⟨⟨⟨le_rfl, hw'.1.1.2⟩, hw'.1.2⟩, htail⟩
        exact cellAt_below _ a this (by assumption)
      split
      · by_cases h : x = a
        · subst h; simp_all
        · simp [h]
      · by_cases h : x = a
        · subst h; simp [cellAt]
        · have : ¬a = x := fun e => h e.symm
          simp [cellAt, h, this]
    · split
      · have hab : a = b := by assumption
        subst hab
        split
        · by_cases h : x = a
          · subst h
            simp only [if_true]
            rw [cellAt_below rest x htail (by omega)]; simp_all
          · have : ¬a = x := fun e => h e.symm
            simp [cellAt, h, this]
        · by_cases h : x = a
          · subst h; simp [cellAt]
          · have : ¬a = x := fun e => h e.symm
            simp [cellAt, h, this]
      · by_cases hb : b = x
        · subst hb
          have : ¬b = a := fun e => by omega
          simp [cellAt, this]
        · simp [cellAt, hb, ih]

theorem cellsOf_wf : ∀ (l : List Byte) (a hi : Nat), a + l.length ≤ hi → cellsWf a hi (cellsOf a l) = true
  | [], _, _, _ => rfl
  | v :: rest, a, hi, h => by
    simp only [List.length_cons] at h
    have ih := cellsOf_wf rest (a + 1) hi (by omega)
    unfold cellsOf
    split
    · exact cellsWf_mono (by omega) _ ih
    · have hv : v ≠ blankByte := by assumption
      simp only [cellsWf, Bool.and_eq_true, decide_eq_true_eq]
      exact ⟨⟨⟨le_rfl, by omega⟩, hv⟩, ih⟩

theorem cellAt_cellsOf : ∀ (l : List Byte) (a i : Nat), i < l.length → cellAt (cellsOf a l) (a + i) = l[i]?.getD blankByte
  | [], _, _, h => by simp at h
  | v :: rest, a, 0, _ => by
    unfold cellsOf
    split
    · have hv : v = blankByte := by assumption
      rw [cellAt_below (lo := a + 1) (hi := a + 1 + rest.length) _ _ (cellsOf_wf rest (a + 1) _ le_rfl) (by omega)]
      simp [hv]
    · simp [cellAt]
  | v :: rest, a, i + 1, h => by
    simp only [List.length_cons] at h
    have ih := cellAt_cellsOf rest (a + 1) i (by omega)
    have e : a + (i + 1) = a + 1 + i := by omega
    unfold cellsOf
    split
    · rw [e, ih]; simp
    · have hne : ¬a = a + 1 + i := by omega
      simp only [cellAt, e, hne, if_false, ih]; simp

/-- Canonical cells with the same reads are the same list. -/
theorem cells_ext {hi : Nat} : ∀ (l l' : List Host.Cell) (lo : Nat), cellsWf lo hi l = true → cellsWf lo hi l' = true →
    (∀ x, x < hi → cellAt l x = cellAt l' x) → l = l'
  | [], [], _, _, _, _ => rfl
  | [], (b, w) :: rest, lo, _, hw, h => by
    simp only [cellsWf, Bool.and_eq_true, decide_eq_true_eq] at hw
    have := h b hw.1.1.2
    simp [cellAt] at this
    exact absurd this.symm hw.1.2
  | (b, w) :: rest, [], lo, hw, _, h => by
    simp only [cellsWf, Bool.and_eq_true, decide_eq_true_eq] at hw
    have := h b hw.1.1.2
    simp [cellAt] at this
    exact absurd this hw.1.2
  | (b, w) :: rest, (b', w') :: rest', lo, hw, hw', h => by
    simp only [cellsWf, Bool.and_eq_true, decide_eq_true_eq] at hw hw'
    obtain ⟨⟨⟨h1, h2⟩, h3⟩, h4⟩ := hw
    obtain ⟨⟨⟨h1', h2'⟩, h3'⟩, h4'⟩ := hw'
    have hbb : b = b' := by
      rcases lt_trichotomy b b' with hlt | heq | hgt
      · have := h b h2
        have hne : ¬b' = b := by omega
        simp only [cellAt, if_true, hne, if_false] at this
        rw [cellAt_below rest' b h4' (by omega)] at this
        exact absurd this h3
      · exact heq
      · have := h b' h2'
        have hne : ¬b = b' := by omega
        simp only [cellAt, if_true, hne, if_false] at this
        rw [cellAt_below rest b' h4 (by omega)] at this
        exact absurd this.symm h3'
    subst hbb
    have hww : w = w' := by have := h b h2; simpa [cellAt] using this
    subst hww
    have : rest = rest' := by
      refine cells_ext rest rest' (b + 1) h4 h4' fun x hx => ?_
      by_cases hxb : b = x
      · subst hxb
        rw [cellAt_below rest b h4 (by omega), cellAt_below rest' b h4' (by omega)]
      · have := h x hx; simpa [cellAt, hxb] using this
    rw [this]

/-! ## The same laws on framebuffers -/

/-- A read is defined exactly below the length (R30). -/
theorem Memory.read_isSome (m : Memory) (i : Nat) : (m.read i).isSome = true ↔ i < m.size := by
  unfold Memory.read; split <;> simp_all

/-- Everything a write can do: it is defined below the length only, keeps the length and the canonical form, and the byte
reads as written, every other as before. -/
theorem Memory.write_spec {m m' : Memory} {i : Nat} {v : Byte} (hm : m.wf = true) (h : m.write i v = some m') :
    i < m.size ∧ m'.size = m.size ∧ m'.wf = true ∧ ∀ x, m'.read x = if x = i then some v else m.read x := by
  unfold Memory.write at h
  split at h
  · rename_i hi
    obtain rfl := Option.some.inj h
    refine ⟨hi, rfl, cellPut_wf i v hi m.cells 0 hm (Nat.zero_le _), fun x => ?_⟩
    simp only [Memory.read, cellAt_cellPut i v x m.cells 0 hm]
    by_cases hx : x = i <;> simp [hx, hi]
  · cases h

/-- A write below the length happens. -/
theorem Memory.write_some {m : Memory} {i : Nat} (v : Byte) (h : i < m.size) : ∃ m', m.write i v = some m' := by
  simp [Memory.write, h]

/-- Canonical framebuffers of one length that read alike are equal. -/
theorem Memory.ext_read {m m' : Memory} (hm : m.wf = true) (hm' : m'.wf = true) (hs : m.size = m'.size)
    (h : ∀ i, m.read i = m'.read i) : m = m' := by
  obtain ⟨n, l⟩ := m
  obtain ⟨n', l'⟩ := m'
  simp only at hs; subst hs
  have : l = l' := cells_ext l l' 0 hm hm' fun x hx => by
    have := h x; simpa [Memory.read, hx] using this
  rw [this]

@[simp] theorem Memory.ofBytes_size (l : List Byte) : (Memory.ofBytes l).size = l.length := rfl

@[simp] theorem Memory.ofBytes_wf (l : List Byte) : (Memory.ofBytes l).wf = true :=
  cellsOf_wf l 0 l.length (by omega)

/-- The framebuffer of a byte sequence reads as that sequence. -/
@[simp] theorem Memory.ofBytes_read (l : List Byte) (i : Nat) : (Memory.ofBytes l).read i = l[i]? := by
  unfold Memory.read
  split
  · rename_i h
    have h : i < l.length := h
    have := cellAt_cellsOf l 0 i h
    simp only [Nat.zero_add] at this
    simp [Memory.ofBytes, this, h]
  · rename_i h
    have h : ¬i < l.length := h
    simp [h]

@[simp] theorem Memory.uniform_size (n : Nat) (v : Byte) : (Memory.uniform n v).size = n := by simp [Memory.uniform]

@[simp] theorem Memory.uniform_wf (n : Nat) (v : Byte) : (Memory.uniform n v).wf = true := by simp [Memory.uniform]

@[simp] theorem Memory.uniform_read (n : Nat) (v : Byte) (i : Nat) :
    (Memory.uniform n v).read i = if i < n then some v else none := by
  simp only [Memory.uniform, Memory.ofBytes_read, List.getElem?_replicate]

@[simp] theorem Memory.bytes_length (m : Memory) : m.bytes.length = m.size := by simp [Memory.bytes]

/-- The byte sequence of a framebuffer lists its reads (R10). -/
@[simp] theorem Memory.bytes_getElem? (m : Memory) (i : Nat) : m.bytes[i]? = m.read i := by
  unfold Memory.bytes Memory.read
  by_cases h : i < m.size <;> simp [h]

@[simp] theorem Memory.ofBytes_bytes (l : List Byte) : (Memory.ofBytes l).bytes = l :=
  List.ext_getElem? fun i => by simp

/-- Reset's framebuffer is canonical. -/
theorem reset_fb_wf : State.reset.fb.wf = true := rfl

end Sys2Proof.Machine
end

