-- ==== Sys2Proof/Laws/Ops.lean ====
section
/-! SUPPORT. One lemma per shared operation: everything it can do. -/

namespace Sys2Proof.Machine

/-! ## Page address generator -/

/-- PAG answers exactly in range, and with R62's place. -/
theorem pag_eq_some {x y w h : Int} {p : PixelPlace} :
    pag x y w h = some p ↔ (0 ≤ x ∧ x < w ∧ 0 ≤ y ∧ y < h) ∧
      p = { page := (y / 8).toNat, bit := (y % 8).toNat, index := (y / 8 * w + x).toNat } := by
  unfold pag
  split
  · rename_i hr; simp [hr, eq_comm]
  · rename_i hr; simp [hr]

theorem pag_eq_none {x y w h : Int} : pag x y w h = none ↔ ¬(0 ≤ x ∧ x < w ∧ 0 ≤ y ∧ y < h) := by
  unfold pag; split <;> simp_all

/-- R63's bound: on legal dimensions the index lies inside the framebuffer. -/
theorem pag_index_lt {x y w h : Int} {p : PixelPlace} (hd : ValidDims w h) (hp : pag x y w h = some p) :
    p.index < fbLength w h := by
  obtain ⟨⟨h1, h2, h3, h4⟩, rfl⟩ := pag_eq_some.mp hp
  obtain ⟨h5, h6, h7⟩ := hd
  have hy : y / 8 + 1 ≤ h / 8 := by omega
  have hmul : (y / 8 + 1) * w ≤ h / 8 * w := Int.mul_le_mul_of_nonneg_right hy (by omega)
  have hnn : 0 ≤ y / 8 * w := Int.mul_nonneg (by omega) (by omega)
  have hexp : (y / 8 + 1) * w = y / 8 * w + w := by ring
  simp only [fbLength]
  omega

theorem pag_bit_lt {x y w h : Int} {p : PixelPlace} (hp : pag x y w h = some p) : p.bit < 8 := by
  obtain ⟨-, rfl⟩ := pag_eq_some.mp hp
  simp only; omega

/-! ## Bits of a painted byte -/

theorem pixelMask_getLsbD (bit j : Nat) (hb : bit < 8) : (pixelMask bit).getLsbD j = decide (j = bit) := by
  by_cases h : j < 8
  · have all : ∀ b j : Fin 8, (pixelMask b).getLsbD j = decide (j.val = b.val) := by decide
    exact all ⟨bit, hb⟩ ⟨j, h⟩
  · have hne : ¬j = bit := by omega
    rw [BitVec.getLsbD_of_ge _ j (by omega)]; simp [hne]

/-- The painted byte has the colour at the bit, and every other bit as before (R66). -/
theorem paintByte_getLsbD (c : Color) (bit j : Nat) (old : Byte) (hb : bit < 8) :
    (paintByte c bit old).getLsbD j = if j = bit then decide (c = .on) else old.getLsbD j := by
  by_cases hj : j < 8
  · cases c <;> by_cases h : j = bit <;>
      simp only [paintByte, BitVec.getLsbD_or, BitVec.getLsbD_and, BitVec.getLsbD_not, pixelMask_getLsbD _ _ hb, h, hj, hb] <;>
      simp
  · have hne : ¬j = bit := by omega
    rw [BitVec.getLsbD_of_ge _ j (by omega), BitVec.getLsbD_of_ge _ j (by omega)]; simp [hne]

/-! ## Plotting -/

/-- Everything one SET_PIXEL can do to the framebuffer. -/
theorem plot_ok {c : DisplayConfig} {color : Color} {m m' : Memory} {x y : Int} (hm : m.wf = true)
    (h : plot c color m x y = .ok m') :
    m'.wf = true ∧ m'.size = m.size ∧
      ((pag x y c.width c.height = none ∧ m' = m) ∨
        ∃ p old, pag x y c.width c.height = some p ∧ m.read p.index = some old ∧
          ∀ i, m'.read i = if i = p.index then some (paintByte color p.bit old) else m.read i) := by
  unfold plot at h
  cases hp : pag x y c.width c.height with
  | none => simp only [hp] at h; cases h; exact ⟨hm, rfl, .inl ⟨rfl, rfl⟩⟩
  | some p =>
    simp only [hp] at h
    cases hr : m.read p.index with
    | none => simp [hr] at h
    | some old =>
      simp only [hr] at h
      cases hw : m.write p.index (paintByte color p.bit old) with
      | none => simp [hw] at h
      | some m₁ =>
        simp only [hw] at h
        cases h
        obtain ⟨-, h2, h3, h4⟩ := Memory.write_spec hm hw
        exact ⟨h3, h2, .inr ⟨p, old, rfl, hr, h4⟩⟩

/-- On a framebuffer of the right length SET_PIXEL always completes. -/
theorem plot_exists {c : DisplayConfig} {m : Memory} (color : Color) (x y : Int)
    (hd : ValidDims c.width c.height) (hs : m.size = fbLength c.width c.height) :
    ∃ m', plot c color m x y = .ok m' := by
  unfold plot
  cases hp : pag x y c.width c.height with
  | none => exact ⟨m, rfl⟩
  | some p =>
    have hi : p.index < m.size := hs ▸ pag_index_lt hd hp
    simp [Memory.read, Memory.write, hi]

/-- A sequence of SET_PIXELs keeps length and form. -/
theorem plotAll_ok {c : DisplayConfig} {color : Color} : ∀ (pts : List (Int × Int)) {m m' : Memory}, m.wf = true →
    plotAll c color m pts = .ok m' → m'.wf = true ∧ m'.size = m.size
  | [], m, m', hm, h => by cases h; exact ⟨hm, rfl⟩
  | (x, y) :: rest, m, m', hm, h => by
    unfold plotAll at h
    cases hp : plot c color m x y with
    | error i => simp [hp] at h
    | ok m₁ =>
      simp only [hp] at h
      obtain ⟨h1, h2, -⟩ := plot_ok hm hp
      obtain ⟨h3, h4⟩ := plotAll_ok rest h1 h
      exact ⟨h3, h4.trans h2⟩

/-- On a framebuffer of the right length a sequence of SET_PIXELs always completes. -/
theorem plotAll_exists {c : DisplayConfig} (color : Color) (hd : ValidDims c.width c.height) :
    ∀ (pts : List (Int × Int)) {m : Memory}, m.wf = true → m.size = fbLength c.width c.height →
      ∃ m', plotAll c color m pts = .ok m'
  | [], m, _, _ => ⟨m, rfl⟩
  | (x, y) :: rest, m, hm, hs => by
    obtain ⟨m₁, hp⟩ := plot_exists color x y hd hs
    obtain ⟨h1, h2, -⟩ := plot_ok hm hp
    obtain ⟨m₂, h⟩ := plotAll_exists color hd rest h1 (h2.trans hs)
    exact ⟨m₂, by simp [plotAll, hp, h]⟩

/-! ## Bus -/

/-- Everything the bus primitive can do (R37, R112). -/
theorem State.busWrite_cases (s : State) (a : DeviceAddress) (bytes : List Byte) :
    (s.answers = [] ∧ s.busWrite a bytes = (none, s)) ∨
    (∃ rest, s.answers = none :: rest ∧ s.busWrite a bytes = (none, { s with answers := rest })) ∨
    (∃ r rest, s.answers = some r :: rest ∧
      s.busWrite a bytes = (some r, s.answered rest ⟨a, bytes, r⟩)) := by
  unfold State.busWrite
  rcases h : s.answers with _ | ⟨_ | r, rest⟩ <;> simp

/-! ## Acceptance -/

@[simp] theorem whenIdle_idle {i : Instr} {s : State} {act : Host.Outcome State Fault Refusal} (h : s.op = none) :
    whenIdle i s act = act := by simp [whenIdle, h]

@[simp] theorem whenIdle_busy {i : Instr} {s : State} {act : Host.Outcome State Fault Refusal} {o : Operation}
    (h : s.op = some o) : whenIdle i s act = .next (s.hold i) := by simp [whenIdle, h]

@[simp] theorem whenConfigured_none {s : State} {act : DisplayConfig → Host.Outcome State Fault Refusal}
    (h : s.cfg = none) : whenConfigured s act = .next (s.refuse .unconfigured) := by simp [whenConfigured, h]

@[simp] theorem whenConfigured_some {s : State} {act : DisplayConfig → Host.Outcome State Fault Refusal}
    {c : DisplayConfig} (h : s.cfg = some c) : whenConfigured s act = act c := by simp [whenConfigured, h]

@[simp] theorem State.drawn_ok (s : State) (m : Memory) : s.drawn (.ok m) = .next ({ s with fb := m }.endWith .ok) := rfl

@[simp] theorem State.drawn_error (s : State) (i : Nat) : s.drawn (.error i) = .fault (.framebufferBounds i) := rfl

/-! ## Serializer -/

/-- Everything the write of a command can do, if it answers a next state. -/
theorem sendCommand_cases {c : Command} {s t : State} (h : sendCommand c s = .next t) :
    ∃ w ht a k, s.op = some (.init w ht a k) ∧ s.build.initSeq[k]? = some c ∧
      ((s.answers = [] ∧ t = s) ∨
       (∃ rest, s.answers = none :: rest ∧ t = { s with answers := rest }) ∨
       (∃ rest, s.answers = some .transportError :: rest ∧
         t = (s.answered rest ⟨a, c.frame, .transportError⟩).initFailed) ∨
       (∃ rest, s.answers = some .ok :: rest ∧ k < 16 ∧
         t = { s.answered rest ⟨a, c.frame, .ok⟩ with op := some (.init w ht a (k + 1)) }) ∨
       (∃ rest, s.answers = some .ok :: rest ∧ ¬k < 16 ∧
         t = (s.answered rest ⟨a, c.frame, .ok⟩).configured w ht a)) := by
  unfold sendCommand at h
  split at h
  · rename_i w ht a k hop
    split at h
    · rename_i hdue
      have hseq : s.build.initSeq[k]? = some c := by simpa [State.commandDue, hop] using hdue
      refine ⟨w, ht, a, k, hop, hseq, ?_⟩
      rcases s.busWrite_cases a c.frame with ⟨ha, hb⟩ | ⟨rest, ha, hb⟩ | ⟨r, rest, ha, hb⟩ <;>
        simp only [hb] at h
      · cases h; exact .inl ⟨ha, rfl⟩
      · cases h; exact .inr (.inl ⟨rest, ha, rfl⟩)
      · cases r with
        | transportError => cases h; exact .inr (.inr (.inl ⟨rest, ha, rfl⟩))
        | ok =>
          simp only at h
          split at h
          · cases h; exact .inr (.inr (.inr (.inl ⟨rest, ha, by assumption, rfl⟩)))
          · cases h; exact .inr (.inr (.inr (.inr ⟨rest, ha, by assumption, rfl⟩)))
    · cases h
  · cases h

/-- Everything the write of a payload can do, if it answers a next state. -/
theorem sendData_cases {p : List Byte} {s t : State} (h : sendData p s = .next t) :
    ∃ o c, s.op = some (.flush o) ∧ s.cfg = some c ∧ o < s.fb.size ∧ p = s.chunkAt o ∧
      ((s.answers = [] ∧ t = s) ∨
       (∃ rest, s.answers = none :: rest ∧ t = { s with answers := rest }) ∨
       (∃ rest, s.answers = some .transportError :: rest ∧
         t = (s.answered rest ⟨c.addr, ctrlData :: p, .transportError⟩).endWith (.error .transportError)) ∨
       (∃ rest, s.answers = some .ok :: rest ∧ s.chunkEnd o < s.fb.size ∧
         t = { s.answered rest ⟨c.addr, ctrlData :: p, .ok⟩ with op := some (.flush (s.chunkEnd o)) }) ∨
       (∃ rest, s.answers = some .ok :: rest ∧ ¬s.chunkEnd o < s.fb.size ∧
         t = (s.answered rest ⟨c.addr, ctrlData :: p, .ok⟩).endWith .ok)) := by
  unfold sendData at h
  split at h
  · rename_i o c hop hcfg
    split at h
    · rename_i hdue
      refine ⟨o, c, hop, hcfg, hdue.1, hdue.2, ?_⟩
      rcases s.busWrite_cases c.addr (ctrlData :: p) with ⟨ha, hb⟩ | ⟨rest, ha, hb⟩ | ⟨r, rest, ha, hb⟩ <;>
        simp only [hb] at h
      · cases h; exact .inl ⟨ha, rfl⟩
      · cases h; exact .inr (.inl ⟨rest, ha, rfl⟩)
      · cases r with
        | transportError => cases h; exact .inr (.inr (.inl ⟨rest, ha, rfl⟩))
        | ok =>
          simp only at h
          split at h
          · cases h; exact .inr (.inr (.inr (.inl ⟨rest, ha, by assumption, rfl⟩)))
          · cases h; exact .inr (.inr (.inr (.inr ⟨rest, ha, by assumption, rfl⟩)))
    · cases h
  · cases h

/-- The chunk that is due is never empty (R74: "No write has an empty payload"). -/
theorem State.chunkAt_length (s : State) (o : Nat) : (s.chunkAt o).length = s.chunkEnd o - o := by
  simp only [State.chunkAt, Memory.slice, List.length_drop, List.length_take, Memory.bytes_length, State.chunkEnd]
  omega

theorem State.chunkAt_ne_nil {s : State} {o : Nat} (h : o < s.fb.size) : s.chunkAt o ≠ [] := by
  intro hnil
  have := s.chunkAt_length o
  have hc := s.build.chunk.pos
  rw [hnil] at this
  simp only [List.length_nil, State.chunkEnd] at this
  omega

/-! ## Instructions and steps -/

/-- Everything an accepted instruction can do to the block, by kind: every meaning is one of these. The first eight are the
host operations, the last two the frames. -/
theorem exec_cases {i : Instr} {s t : State} (h : exec i s = .next t) :
    (∃ o, s.op = some o ∧ t = s.hold i) ∨
    (s.op = none ∧ ∃ why, t = s.refuse why) ∨
    (s.op = none ∧ ∃ w ht a, i = .init w ht a ∧ s.cfg = none ∧ ¬ValidDims w ht ∧ t = s.endWith (.error .configError)) ∨
    (s.op = none ∧ ∃ w ht a, i = .init w ht a ∧ s.cfg = none ∧ ValidDims w ht ∧ fbLength w ht ≤ s.build.fbCapacity ∧
      t = { s with fb := Memory.uniform (fbLength w ht) 0x00, op := some (.init w ht a 0) }) ∨
    (s.op = none ∧ ∃ c x y color m, i = .setPixel x y color ∧ s.cfg = some c ∧ plot c color s.fb x y = .ok m ∧
      t = { s with fb := m }.endWith .ok) ∨
    (s.op = none ∧ ∃ c color, i = .fill color ∧ s.cfg = some c ∧
      t = { s with fb := Memory.uniform s.fb.size (fillByte color) }.endWith .ok) ∨
    (s.op = none ∧ ∃ c string x y color m, i = .drawText string x y color ∧ s.cfg = some c ∧
      plotAll c color s.fb (textPixels s.build string x y) = .ok m ∧ t = { s with fb := m }.endWith .ok) ∨
    (s.op = none ∧ i = .showFb ∧ s.cfg.isSome = true ∧
      ((s.fb.size = 0 ∧ t = s.endWith .ok) ∨ (0 < s.fb.size ∧ t = { s with op := some (.flush 0) }))) ∨
    (∃ c : Command, (∀ b, encode b i = .frame c.frame) ∧ sendCommand c s = .next t) ∨
    (∃ p, i = .dataFrame p ∧ sendData p s = .next t) := by
  have held : ∀ {act : Host.Outcome State Fault Refusal} {Q : Prop}, whenIdle i s act = .next t →
      (s.op = none → act = .next t → Q) → (∃ o, s.op = some o ∧ t = s.hold i) ∨ Q := by
    intro act Q hw hq
    cases hop : s.op with
    | some o => rw [whenIdle_busy hop] at hw; cases hw; exact .inl ⟨o, rfl, rfl⟩
    | none => rw [whenIdle_idle hop] at hw; exact .inr (hq hop hw)
  cases i with
  | init w ht a =>
    refine held h fun hop h => ?_
    split at h
    · cases h; exact .inl ⟨hop, _, rfl⟩
    · have hc : s.cfg = none := by rename_i hc; simpa using hc
      split at h
      · cases h; exact .inr (.inl ⟨hop, w, ht, a, rfl, hc, by assumption, rfl⟩)
      · split at h
        · cases h; exact .inl ⟨hop, _, rfl⟩
        · cases h
          exact .inr (.inr (.inl ⟨hop, w, ht, a, rfl, hc, by rename_i h1 _; exact not_not.mp h1, by omega, rfl⟩))
  | setPixel x y color =>
    refine held h fun hop h => ?_
    obtain hc | ⟨c, hc⟩ : s.cfg = none ∨ ∃ c, s.cfg = some c := by cases s.cfg <;> simp
    · rw [whenConfigured_none hc] at h; cases h; exact .inl ⟨hop, _, rfl⟩
    · rw [whenConfigured_some hc] at h
      cases hp : plot c color s.fb x y with
      | error j => simp [hp] at h
      | ok m =>
        rw [hp, State.drawn_ok] at h; cases h
        exact .inr (.inr (.inr (.inl ⟨hop, c, x, y, color, m, rfl, hc, hp, rfl⟩)))
  | fill color =>
    refine held h fun hop h => ?_
    obtain hc | ⟨c, hc⟩ : s.cfg = none ∨ ∃ c, s.cfg = some c := by cases s.cfg <;> simp
    · rw [whenConfigured_none hc] at h; cases h; exact .inl ⟨hop, _, rfl⟩
    · rw [whenConfigured_some hc] at h; cases h
      exact .inr (.inr (.inr (.inr (.inl ⟨hop, c, color, rfl, hc, rfl⟩))))
  | showFb =>
    refine held h fun hop h => ?_
    obtain hc | ⟨c, hc⟩ : s.cfg = none ∨ ∃ c, s.cfg = some c := by cases s.cfg <;> simp
    · rw [whenConfigured_none hc] at h; cases h; exact .inl ⟨hop, _, rfl⟩
    · rw [whenConfigured_some hc] at h
      split at h
      · cases h
        exact .inr (.inr (.inr (.inr (.inr (.inr (.inl ⟨hop, rfl, by simp [hc], .inl ⟨by assumption, rfl⟩⟩))))))
      · cases h
        exact .inr (.inr (.inr (.inr (.inr (.inr (.inl ⟨hop, rfl, by simp [hc], .inr ⟨by omega, rfl⟩⟩))))))
  | drawText string x y color =>
    refine held h fun hop h => ?_
    obtain hc | ⟨c, hc⟩ : s.cfg = none ∨ ∃ c, s.cfg = some c := by cases s.cfg <;> simp
    · rw [whenConfigured_none hc] at h; cases h; exact .inl ⟨hop, _, rfl⟩
    · rw [whenConfigured_some hc] at h
      cases hp : plotAll c color s.fb (textPixels s.build string x y) with
      | error j => simp [hp] at h
      | ok m =>
        rw [hp, State.drawn_ok] at h; cases h
        exact .inr (.inr (.inr (.inr (.inr (.inl ⟨hop, c, string, x, y, color, m, rfl, hc, hp, rfl⟩)))))
  | reserved101 => exact held h fun hop h => by cases h; exact .inl ⟨hop, _, rfl⟩
  | reserved110 => exact held h fun hop h => by cases h; exact .inl ⟨hop, _, rfl⟩
  | reserved111 => exact held h fun hop h => by cases h; exact .inl ⟨hop, _, rfl⟩
  | dataFrame p => exact .inr (.inr (.inr (.inr (.inr (.inr (.inr (.inr (.inr ⟨p, rfl, h⟩))))))))
  | _ => exact .inr (.inr (.inr (.inr (.inr (.inr (.inr (.inr (.inl ⟨_, fun _ => rfl, h⟩))))))))

/-- Everything a step can do, if it answers a next state: reset, nothing but the host's event, or the instruction that is
fetched. -/
theorem step_cases {s t : State} (h : step s = .next t) :
    (∃ rest, s.inbox = .reset :: rest ∧ t = s.applyReset rest) ∨
    (s.noReset = true ∧ s.takeInput.fetch = none ∧ t = s.takeInput) ∨
    (∃ code i, s.noReset = true ∧ s.takeInput.fetch = some code ∧ decode s.build code = .ok i ∧
      exec i s.takeInput.accept = .next t) := by
  unfold step at h
  split at h
  · rename_i rest hin; cases h; exact .inl ⟨rest, hin, rfl⟩
  · rename_i hin
    have hn : s.noReset = true := by
      unfold State.noReset
      split
      · rename_i rest heq; exact absurd heq (hin rest)
      · rfl
    split at h
    · rename_i hf; cases h; exact .inr (.inl ⟨hn, hf, rfl⟩)
    · rename_i code hf
      split at h
      · rename_i i hd; exact .inr (.inr ⟨code, i, hn, hf, hd, h⟩)
      · cases h

end Sys2Proof.Machine
end

