-- ==== Sys2Proof/Laws/Draw.lean ====
section
/-! SUPPORT. What drawing does, pixel by pixel and byte by byte: one SET_PIXEL, a sequence of them, and the pixels of a text. -/

namespace Sys2Proof.Machine

/-- Two pixels with the same byte and bit are one pixel (R63). -/
theorem pag_inj {w h x y x' y' : Int} {p p' : PixelPlace} (hw : 0 < w) (hp : pag x y w h = some p)
    (hp' : pag x' y' w h = some p') (hi : p.index = p'.index) (hb : p.bit = p'.bit) : x = x' ∧ y = y' := by
  obtain ⟨⟨h1, h2, h3, h4⟩, rfl⟩ := pag_eq_some.mp hp
  obtain ⟨⟨h1', h2', h3', h4'⟩, rfl⟩ := pag_eq_some.mp hp'
  dsimp only at hi hb
  have hnn : 0 ≤ y / 8 * w := Int.mul_nonneg (by omega) (by omega)
  have hnn' : 0 ≤ y' / 8 * w := Int.mul_nonneg (by omega) (by omega)
  have e : x + y / 8 * w = x' + y' / 8 * w := by omega
  have hx : x = x' := by
    have := congrArg (· % w) e
    simpa only [Int.add_mul_emod_self_right, Int.emod_eq_of_lt h1 h2, Int.emod_eq_of_lt h1' h2'] using this
  subst hx
  have : y / 8 = y' / 8 := Int.eq_of_mul_eq_mul_right (show w ≠ 0 by omega) (by omega)
  exact ⟨rfl, by omega⟩

/-- What a pixel reads after one SET_PIXEL (R64, R66). -/
theorem pixel_plot {c : DisplayConfig} {color : Color} {m m' : Memory} {x y px py : Int} (hm : m.wf = true)
    (hw : 0 < c.width) (h : plot c color m x y = .ok m') (hr : InRange c px py) :
    pixel c m' px py = if (px, py) = (x, y) then some (decide (color = .on)) else pixel c m px py := by
  obtain ⟨-, -, ⟨hn, rfl⟩ | ⟨p, old, hp, hold, hread⟩⟩ := plot_ok hm h
  · have : ¬(px, py) = (x, y) := by rintro ⟨⟩; exact pag_eq_none.mp hn hr
    simp [this]
  · have hq : pag px py c.width c.height = some _ := pag_eq_some.mpr ⟨hr, rfl⟩
    unfold pixel
    simp only [hq, hread]
    by_cases hxy : (px, py) = (x, y)
    · cases hxy
      rw [hp] at hq; cases hq
      simp only [if_true, Option.map_some]
      rw [paintByte_getLsbD _ _ _ _ (pag_bit_lt hp)]; simp
    · simp only [hxy, if_false]
      split
      · rename_i he
        simp only [Option.map_some]
        rw [paintByte_getLsbD _ _ _ _ (pag_bit_lt hp)]
        have : ¬((py % 8).toNat = p.bit) := by
          intro hb; obtain ⟨rfl, rfl⟩ := pag_inj hw hq hp he hb; exact hxy rfl
        simp only [this, if_false]
        rw [he, hold]; rfl
      · rfl

/-- What a pixel reads after a sequence of SET_PIXELs of one colour. -/
theorem pixel_plotAll {c : DisplayConfig} {color : Color} (hw : 0 < c.width) :
    ∀ (pts : List (Int × Int)) {m m' : Memory}, m.wf = true → plotAll c color m pts = .ok m' →
      ∀ px py, InRange c px py →
        pixel c m' px py = if (px, py) ∈ pts then some (decide (color = .on)) else pixel c m px py
  | [], m, m', hm, h, px, py, hr => by cases h; simp
  | (x, y) :: rest, m, m', hm, h, px, py, hr => by
    unfold plotAll at h
    cases hp : plot c color m x y with
    | error i => simp [hp] at h
    | ok m₁ =>
      simp only [hp] at h
      obtain ⟨h1, -⟩ := plot_ok hm hp
      rw [pixel_plotAll hw rest h1 h px py hr, pixel_plot hm hw hp hr]
      by_cases h1 : (px, py) ∈ rest <;> by_cases h2 : (px, py) = (x, y) <;> simp [h1, h2]

/-- The bytes a sequence of SET_PIXELs leaves alone: those no pixel of it lives in. -/
theorem plotAll_read_other {c : DisplayConfig} {color : Color} {a : Nat} :
    ∀ (pts : List (Int × Int)) {m m' : Memory}, m.wf = true → plotAll c color m pts = .ok m' →
      (∀ q ∈ pts, ∀ p, pag q.1 q.2 c.width c.height = some p → p.index ≠ a) → m'.read a = m.read a
  | [], m, m', hm, h, _ => by cases h; rfl
  | (x, y) :: rest, m, m', hm, h, ha => by
    unfold plotAll at h
    cases hp : plot c color m x y with
    | error i => simp [hp] at h
    | ok m₁ =>
      simp only [hp] at h
      obtain ⟨h1, -, h2⟩ := plot_ok hm hp
      rw [plotAll_read_other rest h1 h fun q hq => ha q (List.mem_cons_of_mem _ hq)]
      obtain ⟨-, rfl⟩ | ⟨p, old, hpag, -, hread⟩ := h2
      · rfl
      · rw [hread, if_neg fun e => ha (x, y) List.mem_cons_self p hpag e.symm]

/-- The pixels of a text, character by character and bit by bit (R82, R83, R85). -/
theorem mem_textPixels (b : Build) (px py y : Int) : ∀ (string : List CharCode) (x : Int),
    (px, py) ∈ textPixels b string x y ↔
      ∃ (n : Nat) (code : CharCode) (g : Glyph) (i : Fin 8) (j : Nat), string[n]? = some code ∧
        b.font.lookup code = some g ∧ j < 8 ∧ (g.get i).getLsbD j = true ∧
        px = x + 8 * (n : Int) + (j : Int) ∧ py = y + (i.val : Int)
  | [], x => by simp [textPixels]
  | c :: rest, x => by
    unfold textPixels
    rw [List.mem_append, mem_textPixels b px py y rest (x + 8)]
    constructor
    · rintro (h | ⟨n, code, g, i, j, h1, h2, h3, h4, h5, h6⟩)
      · split at h
        · simp at h
        · rename_i g hg
          simp only [glyphPixels, List.mem_flatMap, List.mem_finRange, true_and, List.mem_map, List.mem_filter,
            List.mem_range, Prod.mk.injEq] at h
          obtain ⟨i, j, ⟨hj, hb⟩, h5, h6⟩ := h
          exact ⟨0, c, g, i, j, rfl, hg, hj, hb, by simp [h5], h6.symm⟩
      · exact ⟨n + 1, code, g, i, j, by simpa using h1, h2, h3, h4, by push_cast; omega, h6⟩
    · rintro ⟨n, code, g, i, j, h1, h2, h3, h4, h5, h6⟩
      cases n with
      | zero =>
        left
        simp at h1; subst h1
        have : fontGlyph b c = some g := h2
        simp only [this, glyphPixels, List.mem_flatMap, List.mem_finRange, true_and, List.mem_map, List.mem_filter,
          List.mem_range, Prod.mk.injEq]
        exact ⟨i, j, ⟨h3, h4⟩, by simp [h5], h6.symm⟩
      | succ n =>
        right
        exact ⟨n, code, g, i, j, by simpa using h1, h2, h3, h4, by push_cast at h5; omega, h6⟩

/-- SET_PIXEL instructions one after another are `plotAll`, but for the results. -/
theorem execAll_setPixels {c : DisplayConfig} {color : Color} : ∀ (pts : List (Int × Int)) (s : State) (m : Memory),
    s.op = none → s.cfg = some c → plotAll c color s.fb pts = .ok m →
    ∃ results, execAll (pts.map fun p => .setPixel p.1 p.2 color) s = .next { s with fb := m, results := results }
  | [], s, m, ho, hc, h => by cases h; exact ⟨s.results, rfl⟩
  | (x, y) :: rest, s, m, ho, hc, h => by
    unfold plotAll at h
    cases hp : plot c color s.fb x y with
    | error i => simp [hp] at h
    | ok m₁ =>
      simp only [hp] at h
      have he : exec (.setPixel x y color) s = .next (({ s with fb := m₁ } : State).endWith .ok) := by
        simp [exec, execSetPixel, ho, hc, hp]
      simp only [List.map_cons, execAll, he]
      obtain ⟨rs, h'⟩ := execAll_setPixels rest (({ s with fb := m₁ } : State).endWith .ok) m rfl hc h
      exact ⟨rs, h'.trans (by simp [State.endWith, ho])⟩

end Sys2Proof.Machine
end

