-- ==== Sys2Proof/Laws/Encoding.lean ====
section
/-! SUPPORT. The laws of the operand inputs and of the table of named commands. -/

namespace Sys2Proof

/-- An operand that fits its input is read back (R47). -/
theorem readSigned_writeSigned {w : Nat} {v : Int} (h : FitsSigned w v) : readSigned w (writeSigned w v) = v := by
  unfold readSigned writeSigned
  have e0 : BitVec.ofNat w (BitVec.ofInt w v).toNat = BitVec.ofInt w v :=
    BitVec.eq_of_toNat_eq (by rw [BitVec.toNat_ofNat, Nat.mod_eq_of_lt (BitVec.isLt _)])
  rw [e0, BitVec.toInt_ofInt]
  obtain ⟨h1, h2⟩ := h
  have e : ((2 ^ w : Nat) : Int) = (2 : Int) ^ w := by push_cast; rfl
  apply Int.bmod_eq_of_le_mul_two <;> omega

/-- Whatever is on the wires, the operand read fits. -/
theorem readSigned_fits (w n : Nat) : FitsSigned w (readSigned w n) :=
  ⟨BitVec.le_two_mul_toInt, BitVec.two_mul_toInt_lt⟩

@[simp] theorem Color.ofBit_bit (c : Color) : Color.ofBit c.bit = c := by cases c <;> rfl

/-- A property of every row of the table holds of the row a command is found in. -/
theorem commandRow_mem {i : Instr} {c : Command} : ∀ {rows : List (Instr × Command)},
    commandRow rows c = some i → (i, c) ∈ rows
  | [], h => by cases h
  | (j, d) :: rest, h => by
    unfold commandRow at h
    split at h
    · rename_i e; cases h; subst e; exact List.mem_cons_self
    · exact List.mem_cons_of_mem _ (commandRow_mem h)

/-- Every row of the table: its instruction is encoded as the frame of its command (R52), and is well formed. -/
theorem commandRows_sound (b : Build) :
    ∀ row ∈ commandRows, encode b row.1 = .frame row.2.frame ∧ row.1.wellFormed b = true := by
  simp [commandRows, encode, Instr.wellFormed, Command.frame, Command.bytes, ctrlCmd]

/-- The same for the row a command is found in. -/
theorem commandRow_sound {i : Instr} {c : Command} (h : commandRow commandRows c = some i) (b : Build) :
    encode b i = .frame c.frame ∧ i.wellFormed b = true :=
  commandRows_sound b _ (commandRow_mem h)

/-- A command frame decodes to its named row, or to `cmdFrame`. -/
theorem decode_command (b : Build) (c : Command) :
    decode b (.frame c.frame) = .ok ((commandRow commandRows c).getD (.cmdFrame c.opcode c.operands)) := by
  simp [decode, decodeFrame, Command.frame, Command.bytes]

/-- A data frame of 1 to `CHUNK` bytes decodes to its payload (R43). -/
theorem decode_data (b : Build) {p : List Byte} (h : p ≠ []) (hl : p.length ≤ b.chunk) :
    decode b (.frame (ctrlData :: p)) = .ok (.dataFrame p) := by
  cases p with
  | nil => exact absurd rfl h
  | cons v rest =>
    simp only [List.length_cons] at hl
    simp only [decode, decodeFrame, show ¬ctrlData = ctrlCmd by decide, if_false, if_true, hl]

end Sys2Proof
end

