-- ==== Sys2Proof/Laws/PerInstr.lean ====
section
/-! SUPPORT. Statements made per instruction: `FrameShape`, the code word of a well-formed instruction is a request or a legal
frame (R44). -/

namespace Sys2Proof.Laws.FrameShape

/-- The code word of a well-formed instruction is a request of the host, or a frame that R44 allows. -/
def Statement (i : Instr) : Prop :=
  ∀ b : Build, i.wellFormed b = true →
    match encode b i with
    | .request _ => True
    | .frame bytes => Machine.legalFrame bytes = true

theorem init (w h : Int) (a : DeviceAddress) : Statement (.init w h a) := fun _ _ => trivial

theorem setPixel (x y : Int) (c : Color) : Statement (.setPixel x y c) := fun _ _ => trivial

theorem fill (c : Color) : Statement (.fill c) := fun _ _ => trivial

theorem showFb : Statement (.showFb) := fun _ _ => trivial

theorem drawText (t : List CharCode) (x y : Int) (c : Color) : Statement (.drawText t x y c) := fun _ _ => trivial

theorem reserved101 : Statement (.reserved101) := fun _ _ => trivial

theorem reserved110 : Statement (.reserved110) := fun _ _ => trivial

theorem reserved111 : Statement (.reserved111) := fun _ _ => trivial

theorem cmdFrame (o : Byte) (p : List Byte) : Statement (.cmdFrame o p) := fun _ _ => rfl

theorem dataFrame (p : List Byte) : Statement (.dataFrame p) := fun _ h => by
  cases p with
  | nil => simp [Instr.wellFormed] at h
  | cons v rest => rfl

theorem displayOff : Statement (.displayOff) := fun _ _ => rfl

theorem setClockDiv : Statement (.setClockDiv) := fun _ _ => rfl

theorem setMultiplex : Statement (.setMultiplex) := fun _ _ => rfl

theorem setDisplayOffset : Statement (.setDisplayOffset) := fun _ _ => rfl

theorem setStartLine : Statement (.setStartLine) := fun _ _ => rfl

theorem chargePump : Statement (.chargePump) := fun _ _ => rfl

theorem memoryMode : Statement (.memoryMode) := fun _ _ => rfl

theorem segRemap : Statement (.segRemap) := fun _ _ => rfl

theorem comScanDec : Statement (.comScanDec) := fun _ _ => rfl

theorem setComPins : Statement (.setComPins) := fun _ _ => rfl

theorem setContrast : Statement (.setContrast) := fun _ _ => rfl

theorem setPrecharge : Statement (.setPrecharge) := fun _ _ => rfl

theorem setVcomDeselect : Statement (.setVcomDeselect) := fun _ _ => rfl

theorem displayAllOnResume : Statement (.displayAllOnResume) := fun _ _ => rfl

theorem normalDisplay : Statement (.normalDisplay) := fun _ _ => rfl

theorem deactivateScroll : Statement (.deactivateScroll) := fun _ _ => rfl

theorem displayOn : Statement (.displayOn) := fun _ _ => rfl

end Sys2Proof.Laws.FrameShape
end

