-- ==== Sys2Proof/Laws/Step.lean ====
section
/-! SUPPORT. What a step of INIT and of SHOW does, and runs of several steps. -/

namespace Sys2Proof.Machine

/-- If no reset comes within some steps, none comes at the next, and none within the others. -/
theorem State.noResetWithin_succ {s : State} {n : Nat} (h : s.noResetWithin (n + 1)) :
    s.noReset = true ∧ s.takeInput.noResetWithin n := by
  unfold State.noResetWithin at h ⊢
  unfold State.noReset
  rcases hin : s.inbox with _ | ⟨e, rest⟩
  · simp [hin]
  · rw [hin] at h
    cases e <;> simp_all

/-- The host's part of a run of `m + n` steps: its first `m` steps, and the rest after these. -/
theorem State.noResetWithin_add {s : State} {m n : Nat} (h : s.noResetWithin (m + n)) :
    s.noResetWithin m ∧ (s.afterHost m).noResetWithin n := by
  simp only [State.noResetWithin, State.afterHost_inbox, List.take_add, List.mem_append, not_or] at h ⊢
  exact h

/-- A step without reset runs what is fetched after the host's event. -/
theorem step_fetch {s : State} (hn : s.noReset = true) {code : Code} {i : Instr} (hf : s.takeInput.fetch = some code)
    (hd : decode s.build code = .ok i) : step s = exec i s.takeInput.accept := by
  unfold step
  split
  · rename_i rest h; simp [State.noReset, h] at hn
  · simp [hf, hd]

/-- Whichever instruction a command frame encodes, CMD_FRAME or a named row, it sends that command (R42, R52). -/
theorem exec_of_encode_command {i : Instr} {b : Build} {c : Command} (h : encode b i = .frame c.frame) (s : State) :
    exec i s = sendCommand c s := by
  obtain ⟨opcode, operands⟩ := c
  cases i <;> simp only [encode, Command.frame, Command.bytes, ctrlCmd, ctrlData, Code.frame.injEq, List.cons.injEq,
    reduceCtorEq] at h
  case dataFrame => exact absurd h.1 (by decide)
  all_goals obtain ⟨-, rfl, rfl⟩ := h; rfl

/-- A named row and its command have one meaning. -/
theorem exec_commandRow {i : Instr} {c : Command} (h : commandRow commandRows c = some i) (s : State) :
    exec i s = sendCommand c s :=
  exec_of_encode_command (commandRow_sound h Build.reference).1 s

/-- In INIT a step sends the entry that is due. -/
theorem step_init {s : State} {w h : Int} {a : DeviceAddress} {k : Nat} {c : Command} (hn : s.noReset = true)
    (hop : s.op = some (.init w h a k)) (hc : s.build.initSeq[k]? = some c) :
    step s = sendCommand c s.takeInput := by
  have hf : s.takeInput.fetch = some (.frame c.frame) := by simp [State.fetch, State.commandDue, hop, hc]
  rw [step_fetch hn hf (decode_command _ _), State.accept_busy (by simp [hop])]
  cases hr : commandRow commandRows c with
  | none => rfl
  | some i => exact exec_commandRow hr _

/-- In SHOW a step sends the chunk that is due. -/
theorem step_flush {s : State} {o : Nat} (hn : s.noReset = true) (hop : s.op = some (.flush o)) (ho : o < s.fb.size) :
    step s = sendData (s.chunkAt o) s.takeInput := by
  have hf : s.takeInput.fetch = some (.frame (ctrlData :: s.chunkAt o)) := by
    simp [State.fetch, hop, State.chunkAt, State.chunkEnd]
  have hl : (s.chunkAt o).length ≤ s.build.chunk := by
    rw [s.chunkAt_length o]; simp only [State.chunkEnd]; omega
  rw [step_fetch hn hf (decode_data _ (State.chunkAt_ne_nil ho) hl), State.accept_busy (by simp [hop])]; rfl

/-! ## The host's side of a step -/

/-- The write of a command leaves the host's side alone. -/
theorem sendCommand_host {c : Command} {s t : State} (h : sendCommand c s = .next t) :
    t.inbox = s.inbox ∧ t.held = s.held := by
  obtain ⟨w, ht, a, k, -, -, ⟨-, rfl⟩ | ⟨_, -, rfl⟩ | ⟨_, -, rfl⟩ | ⟨_, -, -, rfl⟩ | ⟨_, -, -, rfl⟩⟩ :=
    sendCommand_cases h <;> simp

/-- The write of a payload leaves the host's side alone. -/
theorem sendData_host {p : List Byte} {s t : State} (h : sendData p s = .next t) :
    t.inbox = s.inbox ∧ t.held = s.held := by
  obtain ⟨o, c, -, -, -, -, ⟨-, rfl⟩ | ⟨_, -, rfl⟩ | ⟨_, -, rfl⟩ | ⟨_, -, -, rfl⟩ | ⟨_, -, -, rfl⟩⟩ :=
    sendData_cases h <;> simp

/-- An instruction leaves the host's events alone, and the held requests too, unless it is an operation that a busy block puts
back. -/
theorem exec_host {i : Instr} {s t : State} (h : exec i s = .next t) :
    t.inbox = s.inbox ∧ (t.held = s.held ∨ ∃ o, s.op = some o ∧ t = s.hold i) := by
  rcases exec_cases h with ⟨o, ho, rfl⟩ | ⟨-, w, rfl⟩ | ⟨-, _, _, _, -, -, -, rfl⟩ | ⟨-, _, _, _, -, -, -, -, rfl⟩ |
      ⟨-, _, _, _, _, _, -, -, -, rfl⟩ | ⟨-, _, _, -, -, rfl⟩ | ⟨-, _, _, _, _, _, _, -, -, -, rfl⟩ |
      ⟨-, -, -, ⟨-, rfl⟩ | ⟨-, rfl⟩⟩ | ⟨c, -, h⟩ | ⟨p, -, h⟩
  · exact ⟨by simp, .inr ⟨o, ho, rfl⟩⟩
  all_goals first | exact ⟨by simp, .inl (by simp)⟩ | skip
  · exact ⟨(sendCommand_host h).1, .inl (sendCommand_host h).2⟩
  · exact ⟨(sendData_host h).1, .inl (sendData_host h).2⟩

/-- Every step uses up one event of the host (log 9). -/
theorem step_inbox {s t : State} (h : step s = .next t) : t.inbox = s.inbox.drop 1 := by
  rcases step_cases h with ⟨rest, hin, rfl⟩ | ⟨-, -, rfl⟩ | ⟨code, i, -, -, -, h⟩
  · simp [hin, State.applyReset]
  · simp
  · simpa using (exec_host h).1

/-! ## Runs -/

theorem steps_succ {n : Nat} {s t : State} (h : step s = .next t) : steps (n + 1) s = steps n t := by
  simp [steps, h]

theorem steps_add : ∀ (m n : Nat) (s t : State), steps m s = .next t → steps (m + n) s = steps n t
  | 0, n, s, t, h => by cases h; simp
  | m + 1, n, s, t, h => by
    rw [show m + 1 + n = (m + n) + 1 by omega]
    simp only [steps] at h ⊢
    split at h
    · rename_i u _; exact steps_add m n u t h
    · cases h
    · cases h

/-- INIT after the transport's answer to its entry `k` (R55, R58, R60). -/
def State.afterCommand (s : State) (w h : Int) (a : DeviceAddress) (k : Nat) (c : Command)
    (rest : List (Option Answer)) : Answer → State
  | .transportError => (s.answered rest ⟨a, c.frame, .transportError⟩).initFailed
  | .ok =>
    if k < 16 then { s.answered rest ⟨a, c.frame, .ok⟩ with op := some (.init w h a (k + 1)) }
    else (s.answered rest ⟨a, c.frame, .ok⟩).configured w h a

/-- SHOW after the transport's answer to its chunk at offset `o` (R73, R78). -/
def State.afterChunk (s : State) (a : DeviceAddress) (o : Nat) (rest : List (Option Answer)) : Answer → State
  | .transportError => (s.answered rest ⟨a, ctrlData :: s.chunkAt o, .transportError⟩).raise .transportError
  | .ok =>
    if s.chunkEnd o < s.fb.size then
      { s.answered rest ⟨a, ctrlData :: s.chunkAt o, .ok⟩ with op := some (.flush (s.chunkEnd o)) }
    else (s.answered rest ⟨a, ctrlData :: s.chunkAt o, .ok⟩).complete

/-- The entry that is due, answered. -/
theorem sendCommand_answered {s : State} {w h : Int} {a : DeviceAddress} {k : Nat} {c : Command} {r : Answer}
    {rest : List (Option Answer)} (hop : s.op = some (.init w h a k)) (hc : s.build.initSeq[k]? = some c)
    (ha : s.answers = some r :: rest) :
    sendCommand c s = .next (s.afterCommand w h a k c rest r) := by
  simp only [sendCommand, hop, State.commandDue, hc, if_true, State.busWrite, ha]
  cases r
  · simp only [State.afterCommand]; split <;> rfl
  · rfl

/-- One answered step of INIT. -/
theorem step_init_answered {s : State} {w h : Int} {a : DeviceAddress} {k : Nat} {c : Command} {r : Answer}
    {rest : List (Option Answer)} (hn : s.noReset = true) (hop : s.op = some (.init w h a k))
    (hc : s.build.initSeq[k]? = some c) (ha : s.answers = some r :: rest) :
    step s = .next (s.takeInput.afterCommand w h a k c rest r) := by
  rw [step_init hn hop hc]
  exact sendCommand_answered (by simpa using hop) (by simpa using hc) (by simpa using ha)

/-- An unanswered step of INIT: it waits (R112). -/
theorem step_init_unanswered {s : State} {w h : Int} {a : DeviceAddress} {k : Nat} {c : Command}
    {rest : List (Option Answer)} (hn : s.noReset = true) (hop : s.op = some (.init w h a k))
    (hc : s.build.initSeq[k]? = some c) (ha : s.answers = none :: rest) :
    step s = .next { s.takeInput with answers := rest } := by
  rw [step_init hn hop hc]
  simp only [sendCommand, State.takeInput_op, State.takeInput_build, State.takeInput_answers, hop, State.commandDue, hc, if_true,
    State.busWrite, ha]

/-- `n` entries of INIT answered `Ok`, with any waits before, between and after them. -/
theorem steps_init : ∀ (l : List (Option Answer)) (s : State) (w h : Int) (a : DeviceAddress) (k n : Nat)
    (rest : List (Option Answer)), k + n ≤ 16 → s.noResetWithin l.length → s.op = some (.init w h a k) →
    s.answers = l ++ rest → l.filterMap id = List.replicate n .ok →
    steps l.length s = .next { s.afterHost l.length with
      op := some (.init w h a (k + n))
      answers := rest
      history := s.history ++ ((s.build.initSeq.toList.drop k).take n).map fun c => ⟨a, c.frame, .ok⟩ }
  | [], s, w, h, a, k, n, rest, hk, hw, hop, ha, hl => by
    have hn : n = 0 := by simpa using hl
    subst hn
    simp at ha; subst ha
    simp [steps]
    rw [← hop]
  | none :: l, s, w, h, a, k, n, rest, hk, hw, hop, ha, hl => by
    have hk' : k < 17 := by omega
    have hc : s.build.initSeq[k]? = some s.build.initSeq[k] := by simp [hk']
    obtain ⟨hn, hw2⟩ := State.noResetWithin_succ hw
    rw [List.length_cons, steps_succ (step_init_unanswered hn hop hc ha), Nat.add_comm l.length, ← State.afterHost_add]
    exact steps_init l { s.takeInput with answers := l ++ rest } w h a k n rest hk hw2 hop rfl
      (by simpa using hl)
  | some r :: l, s, w, h, a, k, n, rest, hk, hw, hop, ha, hl => by
    have hk' : k < 17 := by omega
    have hc : s.build.initSeq[k]? = some s.build.initSeq[k] := by simp [hk']
    obtain ⟨n, rfl⟩ : ∃ n', n = n' + 1 := ⟨n - 1, by cases n <;> simp_all⟩
    obtain ⟨rfl, hl'⟩ : r = .ok ∧ l.filterMap id = List.replicate n .ok := by
      simpa [List.replicate_succ] using hl
    obtain ⟨hn, hw2⟩ := State.noResetWithin_succ hw
    have h1 := step_init_answered hn hop hc (r := .ok) (rest := l ++ rest) ha
    simp only [State.afterCommand, show k < 16 by omega, if_true] at h1
    rw [List.length_cons, steps_succ h1, Nat.add_comm l.length, ← State.afterHost_add]
    refine (steps_init l { s.takeInput.answered (l ++ rest) ⟨a, (s.build.initSeq[k]).frame, .ok⟩ with
          op := some (.init w h a (k + 1)) } w h a (k + 1) n rest (by omega) hw2 rfl rfl hl').trans ?_
    have hd : s.build.initSeq.toList.drop k = s.build.initSeq[k] :: s.build.initSeq.toList.drop (k + 1) := by
      rw [List.drop_eq_getElem_cons (by simp [hk'])]; simp
    rw [hd]; simp [State.takeInput, State.afterHost, State.answered, show k + 1 + n = k + (n + 1) by omega]

/-- The chunk that is due, answered. -/
theorem sendData_answered {s : State} {o : Nat} {c : DisplayConfig} {r : Answer} {rest : List (Option Answer)}
    (hop : s.op = some (.flush o)) (ho : o < s.fb.size) (hc : s.cfg = some c) (ha : s.answers = some r :: rest) :
    sendData (s.chunkAt o) s = .next (s.afterChunk c.addr o rest r) := by
  simp only [sendData, hop, hc, ho, and_self, if_true, State.busWrite, ha]
  cases r
  · simp only [State.afterChunk]; split <;> rfl
  · rfl

/-- One answered step of SHOW. -/
theorem step_flush_answered {s : State} {o : Nat} {c : DisplayConfig} {r : Answer} {rest : List (Option Answer)}
    (hn : s.noReset = true) (hop : s.op = some (.flush o)) (ho : o < s.fb.size) (hc : s.cfg = some c)
    (ha : s.answers = some r :: rest) :
    step s = .next (s.takeInput.afterChunk c.addr o rest r) := by
  have e : s.chunkAt o = s.takeInput.chunkAt o := by simp [State.chunkAt, State.chunkEnd]
  rw [step_flush hn hop ho, e]
  exact sendData_answered (by simpa using hop) (by simpa using ho) (by simpa using hc) (by simpa using ha)

/-- The chunks before chunk `m` fill the buffer up to its offset, and it starts inside. -/
theorem State.chunk_offset {s : State} {m : Nat} (h : m < s.chunkCount) :
    m * (s.build.chunk : Nat) < s.fb.size ∧
      (m + 1 < s.chunkCount ↔ (m + 1) * (s.build.chunk : Nat) < s.fb.size) := by
  have hK := s.build.chunk.pos
  generalize hk : (s.build.chunk : Nat) = K at hK
  have hcc : s.chunkCount = (s.fb.size + K - 1) / K := by rw [← hk]; rfl
  rw [hcc] at h ⊢
  have key : ∀ j, j < (s.fb.size + K - 1) / K ↔ j * K < s.fb.size := by
    intro j
    rw [Nat.lt_iff_add_one_le, Nat.le_div_iff_mul_le hK]
    have : (j + 1) * K = j * K + K := by ring
    omega
  exact ⟨(key m).mp h, key (m + 1)⟩

theorem State.payloads_drop {s : State} {m : Nat} (h : m < s.chunkCount) :
    s.payloads.drop m = s.chunkAt (m * s.build.chunk) :: s.payloads.drop (m + 1) := by
  rw [List.drop_eq_getElem_cons (by simpa [State.payloads] using h)]
  congr 1
  simp [State.payloads, State.chunkAt, State.chunkEnd, Nat.add_mul]

/-- An unanswered step of SHOW: it waits (R112). -/
theorem step_flush_unanswered {s : State} {o : Nat} {c : DisplayConfig} {rest : List (Option Answer)}
    (hn : s.noReset = true) (hop : s.op = some (.flush o)) (ho : o < s.fb.size) (hc : s.cfg = some c)
    (ha : s.answers = none :: rest) : step s = .next { s.takeInput with answers := rest } := by
  have e : s.chunkAt o = s.takeInput.chunkAt o := by simp [State.chunkAt, State.chunkEnd]
  rw [step_flush hn hop ho]
  simp only [sendData, State.takeInput_op, State.takeInput_cfg, State.takeInput_fb, State.takeInput_answers, hop, hc, ho, e,
    and_self, if_true, State.busWrite, ha]

/-- `n` chunks of SHOW answered `Ok`, with any waits before, between and after them, and more chunks to come. -/
theorem steps_flush (c : DisplayConfig) : ∀ (l : List (Option Answer)) (s : State) (m n : Nat)
    (rest : List (Option Answer)),
    s.noResetWithin l.length → s.op = some (.flush (m * s.build.chunk)) → s.cfg = some c → m + n < s.chunkCount →
    s.answers = l ++ rest → l.filterMap id = List.replicate n .ok →
    steps l.length s = .next { s.afterHost l.length with
      op := some (.flush ((m + n) * s.build.chunk))
      answers := rest
      history := s.history ++ ((s.payloads.drop m).take n).map fun p => ⟨c.addr, 0x40 :: p, .ok⟩ }
  | [], s, m, n, rest, hw, hop, hc, hm, ha, hl => by
    have hn : n = 0 := by simpa using hl
    subst hn
    simp at ha; subst ha
    simp [steps]
    rw [← hop]
  | none :: l, s, m, n, rest, hw, hop, hc, hm, ha, hl => by
    obtain ⟨h1, -⟩ := State.chunk_offset (s := s) (m := m) (by omega)
    obtain ⟨hn, hw2⟩ := State.noResetWithin_succ hw
    rw [List.length_cons, steps_succ (step_flush_unanswered hn hop h1 hc ha), Nat.add_comm l.length, ← State.afterHost_add]
    exact steps_flush c l { s.takeInput with answers := l ++ rest } m n rest hw2 hop hc hm rfl
      (by simpa using hl)
  | some r :: l, s, m, n, rest, hw, hop, hc, hm, ha, hl => by
    obtain ⟨n, rfl⟩ : ∃ n', n = n' + 1 := ⟨n - 1, by cases n <;> simp_all⟩
    obtain ⟨rfl, hl'⟩ : r = .ok ∧ l.filterMap id = List.replicate n .ok := by
      simpa [List.replicate_succ] using hl
    obtain ⟨h1, h2⟩ := State.chunk_offset (s := s) (m := m) (by omega)
    have h3 := h2.mp (by omega)
    have hend : s.chunkEnd (m * s.build.chunk) = (m + 1) * s.build.chunk := by
      have : (m + 1) * (s.build.chunk : Nat) = m * s.build.chunk + s.build.chunk := by ring
      simp only [State.chunkEnd]; omega
    obtain ⟨hn, hw2⟩ := State.noResetWithin_succ hw
    have hend' : s.takeInput.chunkEnd (m * s.build.chunk) = (m + 1) * s.build.chunk := by
      simpa [State.chunkEnd] using hend
    have h := step_flush_answered hn hop h1 hc (r := .ok) (rest := l ++ rest) ha
    simp only [State.afterChunk, hend', State.takeInput_fb, h3, if_true] at h
    rw [List.length_cons, steps_succ h, Nat.add_comm l.length, ← State.afterHost_add]
    refine (steps_flush c l
      { s.takeInput.answered (l ++ rest) ⟨c.addr, ctrlData :: s.takeInput.chunkAt (m * s.build.chunk), .ok⟩ with
        op := some (.flush ((m + 1) * s.build.chunk)) } (m + 1) n rest hw2 rfl hc
      (by simpa [State.chunkCount] using (by omega : m + 1 + n < s.chunkCount)) rfl hl').trans ?_
    rw [State.payloads_drop (s := s) (m := m) (by omega)]
    simp [State.takeInput, State.afterHost, State.answered, State.payloads, State.chunkCount,
      show m + 1 + n = m + (n + 1) by omega, ctrlData, State.chunkAt, State.chunkEnd]

end Sys2Proof.Machine
end

