-- ==== Sys2Proof/Tests/Slice0.lean ====
section
/-! SUPPORT. Tests of one step each, with expected results from spec/ (the source is named), and for every statement with
hypotheses a witness that meets them. -/

namespace Sys2Proof.Tests

open Sys2Proof Sys2Proof.Machine

/-! ## Small states -/

/-- The test glyph of 95_test_vectors.md 2.6. -/
def glyphA : Glyph := #v[0x18, 0x24, 0x42, 0x7E, 0x42, 0x42, 0x42, 0x00]

/-- The reference instance with that font, and a glyph of zeros for the code 0x20. -/
def testBuild : Build := { Build.reference with font := [(0x41, glyphA), (0x20, Vector.replicate 8 0x00)] }

def idle : State := { State.reset with build := testBuild }

/-- A configured idle block. -/
def display (w h : Int) (bytes : List Byte) : State :=
  { idle with cfg := some ⟨w, h, 0x3C⟩, fb := Memory.ofBytes bytes }

/-- INIT of an 8 x 8 display before its entry `k`. -/
def initAt (k : Nat) (answers : List (Option Answer)) : State :=
  { idle with op := some (.init 8 8 0x3C k), fb := Memory.uniform 8 0x00, answers := answers }

/-- The framebuffer of V-SHOW-1. -/
def showBytes : List Byte := [0x01, 0x00, 0x42, 0x00, 0x00, 0x00, 0x00, 0x80]

/-- SHOW of V-SHOW-3 (`CHUNK = 3`) at offset `o`. -/
def showAt (o : Nat) (answers : List (Option Answer)) : State :=
  { display 8 8 showBytes with op := some (.flush o), answers := answers, build := { testBuild with chunk := 3 } }

/-- The state a step or an instruction answers. -/
def nextOf (r : Host.Outcome State Fault Refusal) : Option State :=
  match r with
  | .next t => some t
  | _ => none

/-- The framebuffer it leaves. -/
def fbOf (r : Host.Outcome State Fault Refusal) : Option (List Byte) := (nextOf r).map fun t => t.fb.bytes

/-- The last write of the bus history it leaves. -/
def lastWrite (r : Host.Outcome State Fault Refusal) : Option (List Byte) :=
  (nextOf r).bind fun t => t.history.getLast?.map BusRecord.bytes

/-- An idle or configured state meets the invariant if its framebuffer is canonical and of the right length. -/
theorem inv_of_idle {s : State} (hop : s.op = none) (hh : s.history = []) (hw : s.fb.wf = true)
    (hc : ∀ c, s.cfg = some c →
      ValidDims c.width c.height ∧ s.fb.size = fbLength c.width c.height ∧ s.fb.size ≤ s.build.fbCapacity) : Inv s where
  memory := hw
  configured := hc
  initializing := by simp [hop]
  flushing := by simp [hop]
  frames := by simp [hh]

theorem inv_idle : Inv idle := inv_of_idle rfl rfl (by decide) (fun c h => by cases h)

theorem inv_small : Inv (display 2 8 [0x01, 0x80]) :=
  inv_of_idle rfl rfl (by decide) (fun c h => by cases h; decide)

theorem inv_text : Inv (display 16 8 (List.replicate 16 0x00)) :=
  inv_of_idle rfl rfl (by decide) (fun c h => by cases h; decide)

theorem inv_show : Inv { display 8 8 showBytes with build := { testBuild with chunk := 3 } } :=
  inv_of_idle rfl rfl (by decide) (fun c h => by cases h; decide)

theorem inv_initAt (answers : List (Option Answer)) : Inv (initAt 16 answers) where
  memory := by simp only [initAt]; decide
  configured := fun c h => by cases h
  initializing := fun w h a k e => by cases e; exact ⟨rfl, by decide, (by decide : fbLength 8 8 ≤ 1024), rfl, by decide⟩
  flushing := fun o h => by cases h
  frames := fun r h => by cases h

theorem inv_showAt (answers : List (Option Answer)) : Inv (showAt 6 answers) where
  memory := by simp only [showAt]; decide
  configured := fun c h => by cases h; exact ⟨by decide, rfl, (by decide : 8 ≤ 1024)⟩
  initializing := fun w h a k e => by cases e
  flushing := fun o h => by cases h; exact ⟨rfl, (by decide : 6 < 8), (by decide : 6 % ((3 : PNat) : Nat) = 0)⟩
  frames := fun r h => by cases h

/-! ## Well-formedness refuses ill-formed terms -/

/-- R47: a `CW`-bit signed operand holds -32768 to 32767. -/
theorem test_wf_refuses_wide_init : Instr.wellFormed Build.reference (.init 32768 8 0) = false := by decide
theorem test_wf_refuses_high_init : Instr.wellFormed Build.reference (.init 8 (-32769) 0) = false := by decide
/-- R47: the address has `AW` = 7 bits. -/
theorem test_wf_refuses_long_address : Instr.wellFormed Build.reference (.init 8 8 128) = false := by decide
theorem test_wf_refuses_wide_x : Instr.wellFormed Build.reference (.setPixel 32768 0 .on) = false := by decide
theorem test_wf_refuses_wide_y : Instr.wellFormed Build.reference (.setPixel 0 (-32769) .on) = false := by decide
theorem test_wf_refuses_text_x : Instr.wellFormed Build.reference (.drawText [] (-32769) 0 .on) = false := by decide
theorem test_wf_refuses_text_y : Instr.wellFormed Build.reference (.drawText [] 0 32768 .on) = false := by decide
/-- R49: a character code has `CHAR_W` = 8 bits. -/
theorem test_wf_refuses_wide_code : Instr.wellFormed Build.reference (.drawText [0x41, 256] 0 0 .on) = false := by decide
theorem test_wf_refuses_named_row_as_cmdFrame : Instr.wellFormed Build.reference (.cmdFrame 0xD5 [0x80]) = false := by
  decide
/-- R43, R44: a data frame carries at least one byte, and at most `CHUNK`. -/
theorem test_wf_refuses_empty_payload : Instr.wellFormed Build.reference (.dataFrame []) = false := by decide
theorem test_wf_refuses_long_payload :
    Instr.wellFormed Build.reference (.dataFrame (List.replicate 17 0x00)) = false := by decide

/-! ## Decoding: words written out from the spec -/

/-- R46, R47: INIT is 000, with width, height and address on their inputs. -/
theorem test_decode_init : decode Build.reference
    (.request { op := 0b000, width := 128, height := 64, addr := 0x3C }) = .ok (.init 128 64 0x3C) := by rfl
/-- R47: a coordinate is signed: 0xFFFF on 16 wires is -1. -/
theorem test_decode_setPixel : decode Build.reference
    (.request { op := 0b001, x := 0xFFFF, y := 0x7FFF, color := 1 }) = .ok (.setPixel (-1) 32767 .on) := by rfl
theorem test_decode_fill : decode Build.reference (.request { op := 0b010, color := 0 }) = .ok (.fill .off) := by rfl
theorem test_decode_show : decode Build.reference (.request { op := 0b011 }) = .ok .showFb := by rfl
theorem test_decode_drawText : decode Build.reference
    (.request { op := 0b100, string := [0x41, 0x42], x := 2, y := 0x8000, color := 1 }) =
      .ok (.drawText [0x41, 0x42] 2 (-32768) .on) := by rfl
/-- R50: the codes 101, 110 and 111 are reserved. -/
theorem test_decode_reserved :
    decode Build.reference (.request { op := 0b101 }) = .ok .reserved101 ∧
    decode Build.reference (.request { op := 0b110 }) = .ok .reserved110 ∧
    decode Build.reference (.request { op := 0b111 }) = .ok .reserved111 := ⟨rfl, rfl, rfl⟩
/-- R42: `[0x00, opcode, operand...]`. -/
theorem test_decode_cmdFrame :
    decode Build.reference (.frame [0x00, 0x21, 0x00, 0x7F]) = .ok (.cmdFrame 0x21 [0x00, 0x7F]) := by rfl
/-- R43: `[0x40, payload_bytes...]`, here the write of V-SHOW-1. -/
theorem test_decode_dataFrame : decode Build.reference (.frame [0x40, 0x01, 0x00, 0x42, 0x00, 0x00, 0x00, 0x00, 0x80]) =
    .ok (.dataFrame showBytes) := by rfl
/-- R44: no control byte alone, no other control byte, no empty write; R43: no payload beyond `CHUNK`. -/
theorem test_decode_refuses :
    decode Build.reference (.frame []) = .error .noControlByte ∧
    decode Build.reference (.frame [0x00]) = .error .controlByteAlone ∧
    decode Build.reference (.frame [0x40]) = .error .controlByteAlone ∧
    decode Build.reference (.frame [0x80, 0xAE]) = .error (.reservedControlByte 0x80) ∧
    decode Build.reference (.frame (0x40 :: List.replicate 17 0x00)) = .error (.payloadTooLong 17) :=
  ⟨rfl, rfl, rfl, rfl, rfl⟩

/-- The 17 byte sequences of the trace of V-INIT-1 (95_test_vectors.md), in its order. -/
def traceOfInit : List (List Byte) :=
  [[0x00, 0xAE], [0x00, 0xD5, 0x80], [0x00, 0xA8, 0x3F], [0x00, 0xD3, 0x00], [0x00, 0x40], [0x00, 0x8D, 0x14]] ++
  [[0x00, 0x20, 0x00], [0x00, 0xA1], [0x00, 0xC8], [0x00, 0xDA, 0x12], [0x00, 0x81, 0xCF], [0x00, 0xD9, 0xF1]] ++
  [[0x00, 0xDB, 0x40], [0x00, 0xA4], [0x00, 0xA6], [0x00, 0x2E], [0x00, 0xAF]]

/-- The instructions of the 17 rows, in the order of R51. -/
def namedRows : List Instr :=
  [.displayOff, .setClockDiv, .setMultiplex, .setDisplayOffset, .setStartLine, .chargePump, .memoryMode, .segRemap,
   .comScanDec, .setComPins, .setContrast, .setPrecharge, .setVcomDeselect, .displayAllOnResume, .normalDisplay,
   .deactivateScroll, .displayOn]

/-- R52: each write of the trace decodes to its row's instruction. -/
theorem test_decode_named : traceOfInit.map (fun l => (decode Build.reference (.frame l)).toOption) =
    namedRows.map some := by rfl

/-- spec/opcode_table.json, format HOSTOP: the match values of the eight 3-bit rows. -/
theorem test_table_requests :
    (List.range 8).map (decodeTableWord 8) =
      [some (.init 0 0 0), some (.setPixel 0 0 .off), some (.fill .off), some .showFb, some (.drawText [] 0 0 .off),
       some .reserved101, some .reserved110, some .reserved111] := by rfl
/-- spec/opcode_table.json, format CMD: the match values of the 17 rows. -/
theorem test_table_commands :
    [decodeTableWord 16 0x00AE, decodeTableWord 24 0x00D580, decodeTableWord 24 0x00A83F, decodeTableWord 24 0x00D300,
     decodeTableWord 16 0x0040, decodeTableWord 24 0x008D14, decodeTableWord 24 0x002000, decodeTableWord 16 0x00A1,
     decodeTableWord 16 0x00C8, decodeTableWord 24 0x00DA12, decodeTableWord 24 0x0081CF, decodeTableWord 24 0x00D9F1,
     decodeTableWord 24 0x00DB40, decodeTableWord 16 0x00A4, decodeTableWord 16 0x00A6, decodeTableWord 16 0x002E,
     decodeTableWord 16 0x00AF] = namedRows.map some := by rfl
/-- spec/opcode_table.json, format FRAME: a control byte 0x40, and 0x00 with its command byte. -/
theorem test_table_frames :
    decodeTableWord 8 0x40 = some (.dataFrame [0x00]) ∧ decodeTableWord 16 0x0021 = some (.cmdFrame 0x21 []) :=
  ⟨rfl, rfl⟩

/-! ## A table word placed where the step fetches runs as the first instruction after reset -/

theorem test_step_runs_table_requests :
    ((List.range 8).all fun w => (nextOf (step (State.reset.withFetchWord 8 w))).isSome) = true := by decide
theorem test_step_runs_table_command :
    lastWrite (step (State.reset.withFetchWord 24 0x00D580)) = some [0x00, 0xD5, 0x80] := by decide
theorem test_step_runs_table_data : lastWrite (step (State.reset.withFetchWord 8 0x40)) = some [0x40, 0x00] := by decide

/-! ## INIT (95_test_vectors.md 2.1) -/

/-- V-INIT-5, the acceptance: 3 x 24 gives 9 bytes of 00. -/
theorem test_init_allocates : fbOf (exec (.init 3 24 0x3C) idle) = some (List.replicate 9 0x00) := by decide
/-- V-INIT-6, V-INIT-7, V-INIT-10: ConfigError. -/
theorem test_init_configError :
    [Instr.init 8 10 0x3C, .init 0 8 0x3C, .init 8 (-8) 0x3C].map
        (fun i => (nextOf (exec i idle)).map State.results) =
      List.replicate 3 (some [.error .configError]) := by decide

/-! ## Page address generator (95_test_vectors.md 2.2) -/

/-- V-PAG-5, V-PAG-9, V-PAG-18. -/
theorem test_pag :
    pag 5 9 128 64 = some ⟨1, 1, 133⟩ ∧ pag 127 63 128 64 = some ⟨7, 7, 1023⟩ ∧ pag 1 8 3 24 = some ⟨1, 0, 4⟩ := by
  decide
/-- V-PAG-10, V-PAG-11, V-PAG-12, V-PAG-13, V-PAG-19. -/
theorem test_pag_none :
    pag 128 0 128 64 = none ∧ pag (-1) 0 128 64 = none ∧ pag 0 64 128 64 = none ∧ pag 0 (-1) 128 64 = none ∧
      pag 3 0 3 24 = none := by decide

/-! ## SET_PIXEL, FILL (95_test_vectors.md 2.3, 2.4) -/

/-- 2.3, one column of 8 x 8: `SET_PIXEL 2, 7, on` takes 7F to FF. -/
theorem test_setPixel_on : fbOf (exec (.setPixel 2 7 .on) (display 8 8 [0, 0, 0x7F, 0, 0, 0, 0, 0])) =
    some [0, 0, 0xFF, 0, 0, 0, 0, 0] := by decide
/-- V-PIX-5: `SET_PIXEL 0, 0, off` takes 81 to 80. -/
theorem test_setPixel_off : fbOf (exec (.setPixel 0 0 .off) (display 2 8 [0x81, 0xFF])) = some [0x80, 0xFF] := by decide
/-- V-FILL-1, on a smaller display. -/
theorem test_fill_on : fbOf (exec (.fill .on) (display 2 16 [0, 0, 0, 0])) = some [0xFF, 0xFF, 0xFF, 0xFF] := by decide
/-- V-FILL-4. -/
theorem test_fill_off : fbOf (exec (.fill .off) (display 8 8 showBytes)) = some (List.replicate 8 0x00) := by decide

/-! ## SHOW (95_test_vectors.md 2.5) and the frames -/

/-- R73: SHOW begins at offset 0. -/
theorem test_show_starts : (nextOf (exec .showFb (display 8 8 showBytes))).map State.op = some (some (.flush 0)) := by
  decide
/-- V-SHOW-3, the last chunk: `40 00 80`, and SHOW ends OK. -/
theorem test_show_last_chunk :
    (nextOf (step (showAt 6 [some .ok]))).map (fun t => (t.history, t.results, t.op)) =
      some ([⟨0x3C, [0x40, 0x00, 0x80], .ok⟩], [.ok], none) := by decide
/-- V-SHOW-3, the first chunk: `40 01 00 42`. -/
theorem test_show_first_chunk :
    (nextOf (step (showAt 0 [some .ok]))).map (fun t => (t.history, t.results, t.op)) =
      some ([⟨0x3C, [0x40, 0x01, 0x00, 0x42], .ok⟩], [], some (.flush 3)) := by decide

/-- V-INIT-1: each entry of INIT is its row's write, and INIT goes on. -/
theorem test_init_trace :
    (List.range 17).map (fun k => lastWrite (step (initAt k [some .ok]))) = traceOfInit.map some := by decide
/-- V-INIT-3, the end: after entry 16 the block is configured with the result OK. -/
theorem test_init_ends :
    (nextOf (step (initAt 16 [some .ok]))).map (fun t => (t.cfg, t.results, t.op)) =
      some (some ⟨8, 8, 0x3C⟩, [.ok], none) := by decide
/-- V-INIT-13: TransportError at entry 5 ends INIT, `cfg` stays none. -/
theorem test_init_transportError :
    (nextOf (step (initAt 5 [some .transportError]))).map (fun t => (t.cfg, t.results, t.op, t.history)) =
      some (none, [.error .transportError], none, [⟨0x3C, [0x00, 0x8D, 0x14], .transportError⟩]) := by rfl

/-! ## DRAW_TEXT (95_test_vectors.md 2.6) -/

/-- V-TEXT-3: clipped at the left edge. -/
theorem test_text_clipped : fbOf (exec (.drawText [0x41] (-3) 0 .on) (display 16 8 (List.replicate 16 0x00))) =
    some ([0x09, 0x09, 0x0A, 0x7C] ++ List.replicate 12 0x00) := by decide
/-- V-TEXT-8: a glyph at y = 5 spans two pages. -/
theorem test_text_two_pages : fbOf (exec (.drawText [0x41] 2 5 .on) (display 16 16 (List.replicate 32 0x00))) =
    some ([0, 0, 0, 0x80, 0x40, 0x20, 0x20, 0x40, 0x80, 0, 0, 0, 0, 0, 0, 0] ++
      [0, 0, 0, 0x0F, 0x01, 0x01, 0x01, 0x01, 0x0F, 0, 0, 0, 0, 0, 0, 0]) := by decide

/-! ## Refused requests (R50, R102) -/

/-- V-PIX-15, V-FILL-8, V-SHOW-15, V-INIT-16: nothing but the mark. -/
theorem test_refused :
    [exec (.setPixel 0 0 .on) idle, exec (.fill .on) idle, exec .showFb idle].map nextOf =
        List.replicate 3 (some (idle.refuse .unconfigured)) ∧
      nextOf (exec (.init 16 8 0x3C) (display 8 8 showBytes)) = some ((display 8 8 showBytes).refuse .alreadyConfigured) := by
  decide
/-- R50. -/
theorem test_reserved : nextOf (exec .reserved101 idle) = some (idle.refuse (.reservedCode 0b101)) := by decide

/-! ## Witnesses: for every statement of Obligations.lean with hypotheses, states and operands that meet them -/

def small : State := display 2 8 [0x01, 0x80]

def shower : State := { display 8 8 showBytes with build := { testBuild with chunk := 3 } }

/-- `s` with what the transport will answer. -/
def withAnswers (s : State) (answers : List (Option Answer)) : State := { s with answers := answers }

/-- `s` with what the host will do. -/
def withInbox (s : State) (inbox : List HostEvent) : State := { s with inbox := inbox }

/-- A host that does nothing more, one that is quiet and issues a request, which is held, and one that resets just after the
`n` steps; not one that resets in the last of them, also behind a request. -/
theorem witness_noResetWithin :
    (withInbox idle []).noResetWithin 18 ∧ (withInbox idle [.quiet, .request { op := 2 }]).noResetWithin 18 ∧
      (withInbox idle (List.replicate 18 .quiet ++ [.reset])).noResetWithin 18 ∧
      ¬(withInbox idle (List.replicate 17 .quiet ++ [.reset])).noResetWithin 18 ∧
      ¬(withInbox idle [.request { op := 2 }, .reset]).noResetWithin 2 := by decide

theorem witness_StepKeepsInvariant :
    (∃ t, Inv (initAt 16 [some .ok]) ∧ step (initAt 16 [some .ok]) = .next t) ∧
    (∃ t, Inv (showAt 6 [some .transportError]) ∧ step (showAt 6 [some .transportError]) = .next t) :=
  ⟨⟨_, inv_initAt _, rfl⟩, ⟨_, inv_showAt _, rfl⟩⟩

theorem witness_InvariantStepNeverStops : Inv idle ∧ Inv small ∧ Inv (initAt 16 []) ∧ Inv (showAt 6 []) :=
  ⟨inv_idle, inv_small, inv_initAt _, inv_showAt _⟩

theorem witness_ResetAbandonsOperation : { initAt 5 [some .ok] with inbox := [.reset, .quiet] }.inbox = .reset :: [.quiet] :=
  rfl

/-- Every operand at both ends of its range. -/
theorem witness_DecodeEncodeRoundTrip :
    [Instr.init 32767 (-32768) 127, .setPixel (-32768) 32767 .off, .fill .on, .showFb, .drawText [0, 255] 32767 (-32768) .on,
      .reserved111, .cmdFrame 0xD5 [0x81], .dataFrame [0x00], .dataFrame (List.replicate 16 0xFF), .displayOn].all
      (Instr.wellFormed Build.reference) = true := by decide

theorem witness_DecodedFrameEncodesBack :
    decode Build.reference (.frame [0x40, 0xA5]) = .ok (.dataFrame [0xA5]) ∧
    decode Build.reference (.frame [0x00, 0xAF]) = .ok .displayOn := ⟨rfl, rfl⟩

/-- The two sides at the bound of R43: 16 bytes of payload decode, 17 do not. -/
theorem witness_FrameDecodesExactlyIfLegal :
    (decode Build.reference (.frame (0x40 :: List.replicate 16 0x00))).toOption.isSome = true ∧
    (decode Build.reference (.frame (0x40 :: List.replicate 17 0x00))).toOption.isSome = false := ⟨rfl, rfl⟩

/-- Its clauses: a request; entries 0 and 16; chunks at offsets 0 and 6; nothing; quiet; reset. -/
theorem witness_StepRunsDecodedInstruction :
    (idle.op = none ∧ (withInbox idle [.request { op := 3 }]).noReset = true ∧
      (withInbox idle [.request { op := 3 }]).held ++ arrivals ((withInbox idle [.request { op := 3 }]).inbox.take 1) =
        [{ op := 3 }] ∧
      { withInbox idle [.request { op := 2 }] with held := [{ op := 3 }] }.held ++
        arrivals ((withInbox idle [.request { op := 2 }]).inbox.take 1) = [{ op := 3 }, { op := 2 }] ∧
      decode idle.build (.request { op := 3 }) = .ok .showFb) ∧
    ((initAt 0 []).op = some (.init 8 8 0x3C 0) ∧ (initAt 0 []).build.initSeq[0]? = some ⟨0xAE, []⟩ ∧
      (initAt 0 []).noReset = true ∧ decode (initAt 0 []).build (.frame [0x00, 0xAE]) = .ok .displayOff) ∧
    ((initAt 16 []).op = some (.init 8 8 0x3C 16) ∧ (initAt 16 []).build.initSeq[16]? = some ⟨0xAF, []⟩ ∧
      (initAt 16 []).noReset = true ∧ decode (initAt 16 []).build (.frame [0x00, 0xAF]) = .ok .displayOn) ∧
    ((showAt 0 []).op = some (.flush 0) ∧ (showAt 0 []).noReset = true ∧
      decode (showAt 0 []).build (.frame (0x40 :: (showAt 0 []).fb.slice 0 3)) = .ok (.dataFrame [0x01, 0x00, 0x42])) ∧
    ((showAt 6 []).op = some (.flush 6) ∧ (showAt 6 []).noReset = true ∧
      decode (showAt 6 []).build (.frame (0x40 :: (showAt 6 []).fb.slice 6 8)) = .ok (.dataFrame [0x00, 0x80])) ∧
    (idle.op = none ∧ idle.held = [] ∧ idle.inbox = []) ∧
    ({ idle with inbox := [.quiet] }.inbox = [.quiet]) ∧ ({ idle with inbox := [.reset] }.inbox = [.reset]) := by
  and_intros <;> rfl

/-- A busy block and an idle one, each with a request held and one that arrives. -/
theorem witness_RequestsAreHeldWhileBusy :
    (∃ t, (showAt 6 [some .ok]).op.isSome = true ∧
      (withInbox { showAt 6 [some .ok] with held := [{ op := 3 }] } [.request { op := 2 }]).noReset = true ∧
      step (withInbox { showAt 6 [some .ok] with held := [{ op := 3 }] } [.request { op := 2 }]) = .next t ∧
      t.held = [{ op := 3 }, { op := 2 }]) ∧
    (∃ t, idle.op = none ∧ step (withInbox { idle with held := [{ op := 3 }] } [.request { op := 2 }]) = .next t ∧
      t.held = [{ op := 2 }]) := ⟨⟨_, rfl, rfl, rfl, rfl⟩, _, rfl, rfl, rfl⟩

theorem witness_BusyBlockHoldsTheRequest :
    (showAt 6 []).op = some (.flush 6) ∧ encode (showAt 6 []).build (.fill .on) = .request { op := 2, color := 1 } :=
  ⟨rfl, rfl⟩

/-- Both ends: `cfg` written by entry 16, and kept by a step of a configured block. -/
theorem witness_ConfigurationIsImmutable :
    (∃ t, (initAt 16 [some .ok]).noReset = true ∧ step (initAt 16 [some .ok]) = .next t ∧ t.cfg = some ⟨8, 8, 0x3C⟩) ∧
    (∃ t, Inv (showAt 6 [some .ok]) ∧ (showAt 6 [some .ok]).cfg = some ⟨8, 8, 0x3C⟩ ∧
      (showAt 6 [some .ok]).noReset = true ∧ step (showAt 6 [some .ok]) = .next t) :=
  ⟨⟨_, rfl, rfl, rfl⟩, ⟨_, inv_showAt _, rfl, rfl, rfl⟩⟩

theorem witness_BuildNeverChanges : ∃ t, step { initAt 3 [] with inbox := [.reset] } = .next t := ⟨_, rfl⟩

/-- A step without a write, one of INIT, one of SHOW. -/
theorem witness_HistoryGrowsByLegalFrames :
    (∃ t, idle.noReset = true ∧ step idle = .next t) ∧
    (∃ t, (initAt 0 [some .ok]).noReset = true ∧ step (initAt 0 [some .ok]) = .next t ∧ t.history.length = 1) ∧
    (∃ t, (showAt 0 [some .ok]).noReset = true ∧ step (showAt 0 [some .ok]) = .next t ∧ t.history.length = 1) :=
  ⟨⟨_, rfl, rfl⟩, ⟨_, rfl, rfl, rfl⟩, ⟨_, rfl, rfl, rfl⟩⟩

/-- Each clause: an error of each kind, both ways of an invalid INIT, the last write of INIT and of SHOW failing. -/
theorem witness_ErrorsGoToTheOneHost :
    (∃ t, exec (.init 0 8 0) idle = .next t ∧ t.results = idle.results ++ [.error .configError]) ∧
    (∃ t, exec (.dataFrame [0x00, 0x80]) (showAt 6 [some .transportError]) = .next t ∧
      t.results = (showAt 6 [some .transportError]).results ++ [.error .transportError]) ∧
    (idle.op = none ∧ idle.cfg = none ∧ ¬ValidDims 0 8 ∧ ¬ValidDims 1 0) ∧
    (Inv (initAt 16 [some .transportError]) ∧ (initAt 16 [some .transportError]).op.isSome = true ∧
      (initAt 16 [some .transportError]).noReset = true ∧
      (initAt 16 [some .transportError]).answers = some .transportError :: []) ∧
    (Inv (showAt 6 [some .transportError]) ∧ (showAt 6 [some .transportError]).op.isSome = true ∧
      (showAt 6 [some .transportError]).noReset = true ∧
      (showAt 6 [some .transportError]).answers = some .transportError :: []) :=
  ⟨⟨_, rfl, rfl⟩, ⟨_, rfl, rfl⟩, ⟨rfl, rfl, by decide, by decide⟩, ⟨inv_initAt _, rfl, rfl, rfl⟩,
    inv_showAt _, rfl, rfl, rfl⟩

theorem witness_OneResultEndsTheOperation :
    (∃ t, (initAt 0 [some .ok]).noReset = true ∧ step (initAt 0 [some .ok]) = .next t ∧ t.results = []) ∧
    (∃ t, (initAt 16 [some .ok]).noReset = true ∧ step (initAt 16 [some .ok]) = .next t ∧ t.results = [.ok]) :=
  ⟨⟨_, rfl, rfl, rfl⟩, ⟨_, rfl, rfl, rfl⟩⟩

theorem witness_SilentTransportWaits :
    (Inv (initAt 16 []) ∧ (initAt 16 []).op.isSome = true ∧ (initAt 16 []).answers = [] ∧ (initAt 16 []).noReset = true) ∧
    (Inv (showAt 6 []) ∧ (showAt 6 []).op.isSome = true ∧ (showAt 6 []).answers = [] ∧ (showAt 6 []).noReset = true) :=
  ⟨⟨inv_initAt _, rfl, rfl, rfl⟩, ⟨inv_showAt _, rfl, rfl, rfl⟩⟩

/-- Height 0, height 9, width 0; and the other clause's premise. -/
theorem witness_ConfigErrorExactlyOnInvalidInit :
    (idle.op = none ∧ idle.cfg = none ∧ ((0 : Int) ≤ 0 ∨ (0 : Int) % 8 ≠ 0 ∨ (1 : Int) ≤ 0) ∧
      ((9 : Int) ≤ 0 ∨ (9 : Int) % 8 ≠ 0 ∨ (1 : Int) ≤ 0) ∧ ((8 : Int) ≤ 0 ∨ (8 : Int) % 8 ≠ 0 ∨ (0 : Int) ≤ 0)) ∧
    (∃ t, exec (.init 0 8 0) idle = .next t ∧ t.results = idle.results ++ [.error .configError]) :=
  ⟨⟨rfl, rfl, by decide, by decide, by decide⟩, ⟨_, rfl, rfl⟩⟩

/-- The smallest display, and one that fills `FB_CAPACITY`. -/
theorem witness_InitAllocatesZeroFramebuffer :
    idle.op = none ∧ idle.cfg = none ∧
      ((0 : Int) < 8 ∧ (8 : Int) % 8 = 0 ∧ (0 : Int) < 1 ∧ (8 : Int) / 8 * 1 ≤ idle.build.fbCapacity) ∧
      ((0 : Int) < 64 ∧ (64 : Int) % 8 = 0 ∧ (0 : Int) < 128 ∧ (64 : Int) / 8 * 128 ≤ idle.build.fbCapacity) ∧
      ∃ x y : Int, 0 ≤ x ∧ x < 1 ∧ 0 ≤ y ∧ y < 8 := ⟨rfl, rfl, by decide, by decide, 0, 7, by decide⟩

/-- A configured block; one byte too many for `FB_CAPACITY` = 1024. -/
theorem witness_InitRefusals :
    (small.op = none ∧ small.cfg = some ⟨2, 8, 0x3C⟩) ∧
    (idle.op = none ∧ idle.cfg = none ∧ ValidDims 1025 8 ∧ (idle.build.fbCapacity : Int) < 8 / 8 * 1025) :=
  ⟨⟨rfl, rfl⟩, rfl, rfl, by decide, by decide⟩

/-- The host is quiet for the 18 steps, and resets after them. -/
theorem witness_InitSendsWholeSequence :
    idle.op = none ∧ idle.cfg = none ∧ ValidDims 1 8 ∧ fbLength 1 8 ≤ idle.build.fbCapacity ∧
      (withInbox idle (List.replicate 18 .quiet ++ [.reset])).noResetWithin 18 ∧
      (withAnswers idle (none :: List.replicate 17 (some .ok))).answers = (none :: List.replicate 17 (some .ok)) ++ [] ∧
      (none :: List.replicate 17 (some Answer.ok)).filterMap id = List.replicate 17 .ok ∧
      (none :: List.replicate 17 (some Answer.ok)).getLast? = some (some .ok) :=
  ⟨rfl, rfl, by decide, by decide, by decide, rfl, rfl, rfl⟩

/-- The first and the last entry; the host is quiet once and then issues a request. -/
theorem witness_InitStopsAtFailedEntry :
    idle.op = none ∧ idle.cfg = none ∧ ValidDims 8 8 ∧ fbLength 8 8 ≤ idle.build.fbCapacity ∧
      (withInbox idle [.quiet, .request { op := 2 }]).noResetWithin 17 ∧
      (idle.build.initSeq[0]? = some ⟨0xAE, []⟩ ∧ (withAnswers idle [none, some .transportError]).answers =
        [none] ++ some .transportError :: [] ∧ [(none : Option Answer)].filterMap id = List.replicate 0 .ok) ∧
      (idle.build.initSeq[16]? = some ⟨0xAF, []⟩ ∧
        (withAnswers idle (List.replicate 16 (some .ok) ++ [some .transportError])).answers =
          List.replicate 16 (some .ok) ++ some .transportError :: [] ∧
        (List.replicate 16 (some Answer.ok)).filterMap id = List.replicate 16 .ok) :=
  ⟨rfl, rfl, by decide, by decide, by decide, ⟨rfl, rfl, rfl⟩, rfl, rfl, rfl⟩

/-- Every one of the 17 rows has a state that meets its premises: the reference instance before that entry, the first row
with `k < 16`, the last with `k = 16`. -/
theorem witness_NamedCommandWritesItsFrame :
    (∀ k < 17, (initAt k [some .ok]).op = some (.init 8 8 0x3C k) ∧ (initAt k [some .ok]).answers = [some .ok] ∧
      ((initAt k [some .ok]).build.initSeq[k]?).map (fun c => (0x00 : Byte) :: c.opcode :: c.operands) = traceOfInit[k]?) ∧
    0 < 16 ∧ 16 = 16 := ⟨by decide, by decide, rfl⟩

/-- The instance of `testBuild` with a command of no named row as entry `k`. -/
def customAt (k : Fin 17) : State :=
  { initAt k [some .ok] with build := { testBuild with initSeq := testBuild.initSeq.set k ⟨0x21, [0x00, 0x7F]⟩ } }

theorem witness_CmdFrameWritesTheCommand :
    ((customAt 15).op = some (.init 8 8 0x3C 15) ∧ (customAt 15).build.initSeq[15]? = some ⟨0x21, [0x00, 0x7F]⟩ ∧
      (customAt 15).answers = [some .ok]) ∧
    ((customAt 16).op = some (.init 8 8 0x3C 16) ∧ (customAt 16).build.initSeq[16]? = some ⟨0x21, [0x00, 0x7F]⟩ ∧
      (customAt 16).answers = [some .ok]) := ⟨⟨rfl, rfl, rfl⟩, rfl, rfl, rfl⟩

/-- A command frame, a data frame, the `Ok` that ends INIT, and the write that fails it. -/
theorem witness_FrameInstructionsFrame :
    (∃ t, encode (initAt 0 [some .ok]).build .displayOff = .frame [0x00, 0xAE] ∧
      exec .displayOff (initAt 0 [some .ok]) = .next t) ∧
    (∃ t, encode (showAt 6 [some .ok]).build (.dataFrame [0x00, 0x80]) = .frame [0x40, 0x00, 0x80] ∧
      exec (.dataFrame [0x00, 0x80]) (showAt 6 [some .ok]) = .next t) ∧
    (∃ t, exec .displayOn (initAt 16 [some .ok]) = .next t ∧ t.cfg = some ⟨8, 8, 0x3C⟩) ∧
    (∃ t, exec .displayOn (initAt 16 [some .transportError]) = .next t) :=
  ⟨⟨_, rfl, rfl⟩, ⟨_, rfl, rfl⟩, ⟨_, rfl, rfl⟩, ⟨_, rfl⟩⟩

/-- CMD_FRAME where another entry is due, a named command at the entry before its own, a payload without a SHOW. -/
theorem witness_FramesOnlyWhereDue :
    (encode testBuild (.cmdFrame 0x21 []) = .frame [0x00, 0x21] ∧
      ¬∃ w h a k, (initAt 0 []).op = some (.init w h a k) ∧ (initAt 0 []).build.initSeq[k]? = some ⟨0x21, []⟩) ∧
    (encode testBuild .displayOn = .frame [0x00, 0xAF] ∧
      ¬∃ w h a k, (initAt 15 []).op = some (.init w h a k) ∧ (initAt 15 []).build.initSeq[k]? = some ⟨0xAF, []⟩) ∧
    (¬∃ o c, idle.op = some (.flush o) ∧ idle.cfg = some c ∧ o < idle.fb.size ∧
      [0x00] = idle.fb.slice o (min (o + idle.build.chunk) idle.fb.size)) := by
  refine ⟨⟨rfl, ?_⟩, ⟨rfl, ?_⟩, ?_⟩
  · intro ⟨w, h, a, k, e, hc⟩
    cases e
    exact absurd hc (by decide)
  · intro ⟨w, h, a, k, e, hc⟩
    cases e
    exact absurd hc (by decide)
  · intro ⟨o, c, e, _⟩
    cases e

theorem witness_TransportErrorExactlyOnFailedWrite :
    (∃ t, exec .setClockDiv (initAt 1 [some .transportError]) = .next t ∧
      t.results = (initAt 1 [some .transportError]).results ++ [.error .transportError]) ∧
    (∃ t, exec (.dataFrame [0x00, 0x80]) (showAt 6 [some .ok]) = .next t) := ⟨⟨_, rfl, rfl⟩, _, rfl⟩

/-- The corners of 3 x 24: the first and the last bit of the first and the last byte. -/
theorem witness_PagIsBijective :
    ValidDims 3 24 ∧ pag 0 0 3 24 = some ⟨0, 0, 0⟩ ∧ pag 2 23 3 24 = some ⟨2, 7, 8⟩ ∧
      ((8 : Nat) : Int) < 24 / 8 * 3 ∧ 7 ≤ 7 := by decide

/-- Both corners. -/
theorem witness_SetPixelInRange :
    Inv small ∧ small.op = none ∧ small.cfg = some ⟨2, 8, 0x3C⟩ ∧ InRange ⟨2, 8, 0x3C⟩ 0 0 ∧ InRange ⟨2, 8, 0x3C⟩ 1 7 :=
  ⟨inv_small, rfl, rfl, by decide, by decide⟩

/-- Just outside each edge. -/
theorem witness_SetPixelOutOfRangeChangesNothing :
    small.op = none ∧ small.cfg = some ⟨2, 8, 0x3C⟩ ∧ ¬InRange ⟨2, 8, 0x3C⟩ (-1) 0 ∧ ¬InRange ⟨2, 8, 0x3C⟩ 2 0 ∧
      ¬InRange ⟨2, 8, 0x3C⟩ 0 (-1) ∧ ¬InRange ⟨2, 8, 0x3C⟩ 0 8 := by decide

theorem witness_SetPixelNoBleed :
    Inv small ∧ small.op = none ∧ small.cfg = some ⟨2, 8, 0x3C⟩ ∧ InRange ⟨2, 8, 0x3C⟩ 1 7 ∧
      InRange ⟨2, 8, 0x3C⟩ 1 6 ∧ ((1, 6) : Int × Int) ≠ (1, 7) ∧ ((1, 6) : Nat × Nat) ≠ (1, 7) :=
  ⟨inv_small, rfl, rfl, by decide, by decide, by decide, by decide⟩

/-- Configured and unconfigured, each of the three operations. -/
theorem witness_DrawingMakesNoBusWrite :
    (∃ t, small.op = none ∧ exec (.setPixel 1 7 .on) small = .next t) ∧
    (∃ t, idle.op = none ∧ exec (.fill .on) idle = .next t) ∧
    (∃ t, small.op = none ∧ exec (.drawText [] 0 0 .on) small = .next t) :=
  ⟨⟨_, rfl, rfl⟩, ⟨_, rfl, rfl⟩, _, rfl, rfl⟩

theorem witness_FillReplacesEveryByte : small.op = none ∧ small.cfg = some ⟨2, 8, 0x3C⟩ := ⟨rfl, rfl⟩

/-- The coordinates of 2 x 8 (V-FILL-7). -/
theorem witness_FillEqualsEverySetPixel :
    Inv small ∧ small.op = none ∧ small.cfg = some ⟨2, 8, 0x3C⟩ ∧
      ∀ x y, InRange ⟨2, 8, 0x3C⟩ x y →
        (x, y) ∈ ((List.range 2).product (List.range 8)).map fun p => ((p.1 : Int), (p.2 : Int)) := by
  refine ⟨inv_small, rfl, rfl, fun x y ⟨h1, h2, h3, h4⟩ => ?_⟩
  have h2 : x < 2 := h2
  have h4 : y < 8 := h4
  simp only [List.mem_map, Prod.exists, Prod.mk.injEq]
  exact ⟨x.toNat, y.toNat, List.mem_product.mpr ⟨List.mem_range.mpr (by omega), List.mem_range.mpr (by omega)⟩,
    by omega, by omega⟩

/-- And other contents of the same length. -/
theorem witness_FillIsIdempotent :
    small.op = none ∧ small.cfg = some ⟨2, 8, 0x3C⟩ ∧ (Memory.ofBytes [0xFF, 0x00]).size = small.fb.size := ⟨rfl, rfl, rfl⟩

theorem witness_ShowStartsAtOffsetZero : Inv small ∧ small.op = none ∧ small.cfg = some ⟨2, 8, 0x3C⟩ :=
  ⟨inv_small, rfl, rfl⟩

/-- The first chunk, and the last, short one. -/
theorem witness_DataFrameWritesTheChunk :
    ((showAt 0 [some .ok]).op = some (.flush 0) ∧ (showAt 0 [some .ok]).cfg = some ⟨8, 8, 0x3C⟩ ∧
      0 < (showAt 0 [some .ok]).fb.size ∧
      3 = min (0 + ((showAt 0 [some .ok]).build.chunk : Nat)) (showAt 0 [some .ok]).fb.size ∧ (showAt 0 [some .ok]).answers = [some .ok] ∧
      3 < (showAt 0 [some .ok]).fb.size) ∧
    ((showAt 6 [some .ok]).op = some (.flush 6) ∧ (showAt 6 [some .ok]).cfg = some ⟨8, 8, 0x3C⟩ ∧
      6 < (showAt 6 [some .ok]).fb.size ∧
      8 = min (6 + ((showAt 6 [some .ok]).build.chunk : Nat)) (showAt 6 [some .ok]).fb.size ∧ (showAt 6 [some .ok]).answers = [some .ok] ∧
      8 = (showAt 6 [some .ok]).fb.size) := by decide

/-- V-SHOW-3: payloads of 3, 3 and 2 bytes. -/
theorem witness_ChunksTileTheFramebuffer :
    0 < shower.fb.size ∧ shower.payloads[0]? = some [0x01, 0x00, 0x42] ∧ 0 + 1 < shower.payloads.length ∧
      shower.payloads[2]? = some [0x00, 0x80] ∧ 2 + 1 = shower.payloads.length := by decide

theorem witness_ShowSendsExactlyTheFramebuffer :
    Inv shower ∧ shower.op = none ∧ shower.cfg = some ⟨8, 8, 0x3C⟩ ∧
      (withInbox shower [.quiet, .quiet, .quiet, .quiet, .reset]).noResetWithin 4 ∧ shower.chunkCount = 3 ∧
      (withAnswers shower [some .ok, none, some .ok, some .ok]).answers = [some .ok, none, some .ok, some .ok] ++ [] ∧
      [some Answer.ok, none, some .ok, some .ok].filterMap id = List.replicate shower.chunkCount .ok ∧
      [some Answer.ok, none, some .ok, some .ok].getLast? = some (some .ok) :=
  ⟨inv_show, rfl, rfl, by decide, rfl, rfl, rfl, rfl⟩

/-- The first and the last write. -/
theorem witness_ShowStopsAtFailedChunk :
    Inv shower ∧ shower.op = none ∧ shower.cfg = some ⟨8, 8, 0x3C⟩ ∧
      (withInbox shower [.quiet, .reset]).noResetWithin 1 ∧
      (withInbox shower [.request { op := 2 }, .quiet]).noResetWithin 4 ∧
      (shower.payloads[0]? = some [0x01, 0x00, 0x42] ∧ (withAnswers shower [some .transportError]).answers =
        [] ++ some .transportError :: [] ∧ ([] : List (Option Answer)).filterMap id = List.replicate 0 .ok) ∧
      (shower.payloads[2]? = some [0x00, 0x80] ∧
        (withAnswers shower [some .ok, none, some .ok, some .transportError]).answers =
          [some .ok, none, some .ok] ++ some .transportError :: [] ∧
        [some Answer.ok, none, some .ok].filterMap id = List.replicate 2 .ok) :=
  ⟨inv_show, rfl, rfl, by decide, by decide, ⟨by decide, rfl, rfl⟩, by decide, rfl, rfl⟩

theorem witness_ShowLeavesTheBlockAlone :
    ∃ t, (showAt 6 [some .transportError]).op = some (.flush 6) ∧ (showAt 6 [some .transportError]).noReset = true ∧
      step (showAt 6 [some .transportError]) = .next t := ⟨_, rfl, rfl, rfl⟩

def texter : State := display 16 8 (List.replicate 16 0x00)

theorem witness_DrawTextIsASequenceOfSetPixels :
    Inv texter ∧ texter.op = none ∧ texter.cfg = some ⟨16, 8, 0x3C⟩ ∧ textPixels texter.build [0x41] 0 0 ≠ [] :=
  ⟨inv_text, rfl, rfl, by decide⟩

/-- A pixel that is named (row 0, column 3 of the glyph of the second character), and one that is not. -/
theorem witness_DrawTextNetEffect :
    Inv texter ∧ texter.op = none ∧ texter.cfg = some ⟨16, 8, 0x3C⟩ ∧ InRange ⟨16, 8, 0x3C⟩ 11 0 ∧ InRange ⟨16, 8, 0x3C⟩ 15 7 ∧
      (∃ (n : Nat) (code : CharCode) (g : Glyph) (i : Fin 8) (j : Nat), ([0x42, 0x41] : List CharCode)[n]? = some code ∧
        texter.build.font.lookup code = some g ∧ j < 8 ∧ (g.get i).getLsbD j = true ∧
        (11 : Int) = 0 + 8 * (n : Int) + (j : Int) ∧ (0 : Int) = 0 + (i.val : Int)) ∧
      (¬∃ (n : Nat) (code : CharCode) (g : Glyph) (i : Fin 8) (j : Nat), ([] : List CharCode)[n]? = some code ∧
        texter.build.font.lookup code = some g ∧ j < 8 ∧ (g.get i).getLsbD j = true ∧
        (15 : Int) = 0 + 8 * (n : Int) + (j : Int) ∧ (7 : Int) = 0 + (i.val : Int)) ∧
      (∀ q ∈ textPixels texter.build [0x41] 0 0, ∀ p, pag q.1 q.2 16 8 = some p → p.index ≠ 0) := by
  refine ⟨inv_text, rfl, rfl, by decide, by decide,
    ⟨1, 0x41, glyphA, 0, 3, rfl, rfl, by decide, by decide, by decide, by decide⟩, ?_, ?_⟩
  case refine_2 =>
    have h : ∀ q ∈ textPixels texter.build [0x41] 0 0, ((pag q.1 q.2 16 8).map PixelPlace.index) ≠ some 0 := by decide
    intro q hq p hp e
    exact h q hq (by simp [hp, e])
  intro ⟨n, code, g, i, j, h, _⟩
  simp at h

theorem witness_SetPixelOrderIsUnobservable :
    Inv small ∧ small.op = none ∧ small.cfg = some ⟨2, 8, 0x3C⟩ ∧
      [((0, 0) : Int × Int), (1, 7), (9, 9)].Perm [(1, 7), (0, 0), (9, 9)] :=
  ⟨inv_small, rfl, rfl, List.Perm.swap _ _ _⟩

/-- No glyph, and a glyph of zeros. -/
theorem witness_BlankCharacterOnlyAdvancesTheCursor :
    texter.op = none ∧ texter.cfg = some ⟨16, 8, 0x3C⟩ ∧ blankChar texter.build 0x42 ∧ blankChar texter.build 0x20 :=
  ⟨rfl, rfl, .inl rfl, .inr ⟨Vector.replicate 8 0x00, rfl, by decide⟩⟩

theorem witness_UnconfiguredOperationsAreRefused : idle.op = none ∧ idle.cfg = none := ⟨rfl, rfl⟩

theorem witness_ReservedCodesAreRefused : idle.op = none ∧ small.op = none := ⟨rfl, rfl⟩

theorem witness_RefusedRequestChangesNothing :
    ∃ t, exec .reserved110 small = .next t ∧ t.refusals = small.refusals ++ [.reservedCode 0b110] := ⟨_, rfl, rfl⟩

/-- The transport answers in one run and fails in the other. -/
theorem witness_FramebufferIgnoresTheTransport :
    ∃ t t', Inv (showAt 6 [some .ok]) ∧ (showAt 6 [some .ok]).cfg = some ⟨8, 8, 0x3C⟩ ∧ (showAt 6 [some .ok]).noReset = true ∧
      step (showAt 6 [some .ok]) = .next t ∧
      step { showAt 6 [some .ok] with answers := [some .transportError] } = .next t' :=
  ⟨_, _, inv_showAt _, rfl, rfl, rfl, rfl⟩

/-- An instruction that leaves `fb` alone, and the INIT that allocates it. -/
theorem witness_UnconfiguredFramebufferIsUnobservable :
    (∃ t, idle.op = none ∧ idle.cfg = none ∧ exec (.fill .on) idle = .next t) ∧
    (∃ t, exec (.init 8 8 0x3C) idle = .next t ∧ t.op.isSome = true) := ⟨⟨_, rfl, rfl, rfl⟩, _, rfl, rfl⟩

/-- SHOW hangs on a transport that never answers, a request is held and another comes before the reset. -/
theorem witness_ResetFreesTheBlock :
    Inv (withInbox { showAt 6 [] with held := [{ op := 3 }] } [.request { op := 2 }, .reset, .quiet]) ∧
      (withInbox { showAt 6 [] with held := [{ op := 3 }] } [.request { op := 2 }, .reset, .quiet]).inbox =
        [.request { op := 2 }] ++ .reset :: [.quiet] :=
  ⟨⟨by decide, (inv_showAt []).configured, (inv_showAt []).initializing, (inv_showAt []).flushing, (inv_showAt []).frames⟩, rfl⟩

/-- R104, R112: with a request held and no answer, the reset frees the block at its own step. -/
theorem test_reset_frees_hung_block :
    (nextOf (step (withInbox { showAt 6 [] with held := [{ op := 3 }] } [.reset]))).map (fun t => (t.cfg, t.op, t.history)) =
      some (none, none, []) := by decide

end Sys2Proof.Tests
end

section
/-! Proofs of the scope statements (00_scope.md): what no instruction writes, and which instruction a step runs. -/

namespace Sys2Proof.Machine

/-! ## The build parameters (R6) -/

/-- The write of a command leaves the build parameters alone. -/
theorem sendCommand_build {c : Command} {s t : State} (h : sendCommand c s = .next t) : t.build = s.build := by
  obtain ⟨w, ht, a, k, -, -, ⟨-, rfl⟩ | ⟨_, -, rfl⟩ | ⟨_, -, rfl⟩ | ⟨_, -, -, rfl⟩ | ⟨_, -, -, rfl⟩⟩ :=
    sendCommand_cases h <;> simp

/-- The write of a payload leaves the build parameters alone. -/
theorem sendData_build {p : List Byte} {s t : State} (h : sendData p s = .next t) : t.build = s.build := by
  obtain ⟨o, c, -, -, -, -, ⟨-, rfl⟩ | ⟨_, -, rfl⟩ | ⟨_, -, rfl⟩ | ⟨_, -, -, rfl⟩ | ⟨_, -, -, rfl⟩⟩ :=
    sendData_cases h <;> simp

/-- No instruction writes the build parameters: not an operation put back, refused, failed, started or completed, and not a
frame. -/
theorem exec_build {i : Instr} {s t : State} (h : exec i s = .next t) : t.build = s.build := by
  rcases exec_cases h with ⟨_, -, rfl⟩ | ⟨-, _, rfl⟩ | ⟨-, _, _, _, -, -, -, rfl⟩ | ⟨-, _, _, _, -, -, -, -, rfl⟩ |
      ⟨-, _, _, _, _, _, -, -, -, rfl⟩ | ⟨-, _, _, -, -, rfl⟩ | ⟨-, _, _, _, _, _, _, -, -, -, rfl⟩ |
      ⟨-, -, -, ⟨-, rfl⟩ | ⟨-, rfl⟩⟩ | ⟨_, -, h⟩ | ⟨_, -, h⟩
  any_goals simp
  · exact sendCommand_build h
  · exact sendData_build h

/-- Settles O14, by the three things a step can be: a reset, an idle step, or an instruction. -/
theorem buildNeverChanges : Obligations.BuildNeverChanges := by
  intro s t h
  rcases step_cases h with ⟨rest, -, rfl⟩ | ⟨-, -, rfl⟩ | ⟨code, i, -, -, -, hexec⟩
  · exact State.applyReset_build s rest
  · exact State.takeInput_build s
  · simpa using exec_build hexec

/-! ## What a step runs (R46, R58, R73, R104, R108) -/

/-- A step at which the host applies reset is that reset, whatever is in progress (R104). -/
theorem step_reset {s : State} {rest : List HostEvent} (h : s.inbox = .reset :: rest) :
    step s = .next (s.applyReset rest) := by
  simp [step, h]

/-- A step without reset and with nothing to fetch only takes the host's event (log 9). -/
theorem step_fetch_none {s : State} (hn : s.noReset = true) (hf : s.takeInput.fetch = none) :
    step s = .next s.takeInput := by
  unfold step
  split
  · rename_i rest h; simp [State.noReset, h] at hn
  · simp [hf]

/-- A host that does nothing more leaves the block as it is. -/
theorem State.takeInput_no_event {s : State} (h : s.inbox = []) : s.takeInput = s := by
  calc s.takeInput = { s with inbox := [] } := by simp [State.takeInput, State.afterHost, h, arrivals]
    _ = s := by rw [← h]

/-- A host that is quiet for the step only uses that event up. -/
theorem State.takeInput_quiet {s : State} {rest : List HostEvent} (h : s.inbox = .quiet :: rest) :
    s.takeInput = { s with inbox := rest } := by
  simp [State.takeInput, State.afterHost, h, arrivals]

/-- An idle block fetches the oldest request at the interface (R108). -/
theorem State.fetch_idle {s : State} (h : s.op = none) : s.fetch = s.held.head?.map .request := by
  simp [State.fetch, h]

/-- INIT fetches the frame of the entry that is due (R58). -/
theorem State.fetch_init {s : State} {w h : Int} {a : DeviceAddress} {k : Nat} {c : Command}
    (hop : s.op = some (.init w h a k)) (hc : s.build.initSeq[k]? = some c) : s.fetch = some (.frame c.frame) := by
  simp [State.fetch, State.commandDue, hop, hc]

/-- SHOW fetches the frame of the chunk that is due (R73). -/
theorem State.fetch_flush {s : State} {o : Nat} (hop : s.op = some (.flush o)) :
    s.fetch = some (.frame (ctrlData :: s.chunkAt o)) := by
  simp [State.fetch, hop]

/-- A step of an idle block runs the oldest request at the interface, one that arrives in this step standing last. -/
theorem step_request {s : State} {r : Request} {waiting : List Request} {i : Instr} (hop : s.op = none)
    (hn : s.noReset = true) (hheld : s.takeInput.held = r :: waiting) (hd : decode s.build (.request r) = .ok i) :
    step s = exec i { s with inbox := s.inbox.drop 1, held := waiting } := by
  have hf : s.takeInput.fetch = some (.request r) := by
    rw [State.fetch_idle (by simpa using hop), hheld]; rfl
  rw [step_fetch hn hf hd, State.accept_idle (by simpa using hop), hheld]
  rfl

/-- A step of a block with an operation in progress runs the frame it fetches, and accepts no request. -/
theorem step_frame {s : State} {bytes : List Byte} {i : Instr} (hop : s.op.isSome = true) (hn : s.noReset = true)
    (hf : s.takeInput.fetch = some (.frame bytes)) (hd : decode s.build (.frame bytes) = .ok i) :
    step s = exec i s.takeInput := by
  rw [step_fetch hn hf hd, State.accept_busy (by simpa using hop)]

/-- A step of an idle block at whose interface no request stands only takes the host's event. -/
theorem step_no_request {s : State} (hop : s.op = none) (hn : s.noReset = true) (hheld : s.takeInput.held = []) :
    step s = .next s.takeInput :=
  step_fetch_none hn (by rw [State.fetch_idle (by simpa using hop), hheld]; rfl)

/-- Settles O10, clause by clause: each names what the step fetches. -/
theorem stepRunsDecodedInstruction : Obligations.StepRunsDecodedInstruction := by
  intro s
  refine ⟨?request, ?init, ?flush, ?idle, ?quiet, ?reset⟩
  case request => exact fun r waiting i hop hn hheld hd => step_request hop hn hheld hd
  case init =>
    intro w h a k c i hop hc hn hd
    exact step_frame (by simp [hop]) hn (State.fetch_init (s := s.takeInput) hop hc) hd
  case flush =>
    intro o i hop hn hd
    exact step_frame (by simp [hop]) hn (State.fetch_flush (s := s.takeInput) hop) hd
  case idle =>
    intro hop hheld hin
    have hs := State.takeInput_no_event hin
    rw [step_no_request hop (by simp [State.noReset, hin]) (by rw [hs, hheld]), hs]
  case quiet =>
    intro rest hop hheld hin
    have hs := State.takeInput_quiet hin
    rw [step_no_request hop (by simp [State.noReset, hin]) (by rw [hs, hheld]), hs]
  case reset => exact fun rest hin => step_reset hin

end Sys2Proof.Machine
end

section
/-! Proofs of the state statements (10_state.md): the invariant at reset and across a step, who writes `cfg`, and what the
transport and an unconfigured framebuffer cannot show. -/

namespace Sys2Proof.Machine

/-! ## What each update of the state asks of the invariant -/

section Invariant

variable {s t : State}

/-- The invariant speaks of `cfg`, `fb`, the operation in progress, `H` and the build parameters only. -/
theorem Inv.congr (h : Inv s) (hcfg : t.cfg = s.cfg := by simp) (hfb : t.fb = s.fb := by simp)
    (hop : t.op = s.op := by simp) (hhist : t.history = s.history := by simp) (hb : t.build = s.build := by simp) :
    Inv t where
  memory := by rw [hfb]; exact h.memory
  configured := by rw [hcfg, hfb, hb]; exact h.configured
  initializing := by rw [hop, hcfg, hfb, hb]; exact h.initializing
  flushing := by rw [hop, hcfg, hfb, hb]; exact h.flushing
  frames := by rw [hhist]; exact h.frames

/-- While unconfigured and idle, `fb` and `H` are all there is to check. -/
theorem Inv.of_unconfigured_idle (hcfg : s.cfg = none) (hop : s.op = none) (hm : s.fb.wf = true)
    (hf : ∀ r ∈ s.history, legalFrame r.bytes = true) : Inv s where
  memory := hm
  configured c hc := by simp [hcfg] at hc
  initializing w ht a k ho := by simp [hop] at ho
  flushing o ho := by simp [hop] at ho
  frames := hf

/-- Ending an operation, with whatever result. -/
theorem Inv.endWith (h : Inv s) (r : Result) : Inv (s.endWith r) where
  memory := h.memory
  configured := h.configured
  initializing w ht a k ho := by simp at ho
  flushing o ho := by simp at ho
  frames := h.frames

/-- An idle block may change the bytes of `fb`, not its length (R10, R64, R69). -/
theorem Inv.draw {m : Memory} (h : Inv s) (hop : s.op = none) (hm : m.wf = true) (hs : m.size = s.fb.size) :
    Inv { s with fb := m } where
  memory := hm
  configured := by simpa only [hs] using h.configured
  initializing w ht a k ho := by simp [hop] at ho
  flushing o ho := by simp [hop] at ho
  frames := h.frames

/-- An answered write must be a legal frame (R44). -/
theorem Inv.answered {r : BusRecord} (h : Inv s) (rest : List (Option Answer)) (hr : legalFrame r.bytes = true) :
    Inv (s.answered rest r) where
  memory := h.memory
  configured := h.configured
  initializing := h.initializing
  flushing := h.flushing
  frames q hq := by
    rcases List.mem_append.mp hq with hq | hq
    · exact h.frames q hq
    · rw [List.mem_singleton.mp hq]; exact hr

/-- INIT may stand at any of its 17 entries once `fb` is allocated (R20, R55). -/
theorem Inv.initAt {w ht : Int} {k : Nat} (h : Inv s) (a : DeviceAddress) (hcfg : s.cfg = none) (hd : ValidDims w ht)
    (hcap : fbLength w ht ≤ s.build.fbCapacity) (hfb : s.fb = Memory.uniform (fbLength w ht) 0x00) (hk : k < 17) :
    Inv { s with op := some (.init w ht a k) } where
  memory := h.memory
  configured := h.configured
  initializing w' ht' a' k' ho := by cases ho; exact ⟨hcfg, hd, hcap, hfb, hk⟩
  flushing o ho := by cases ho
  frames := h.frames

/-- SHOW may stand at any multiple of `CHUNK` inside `fb` (R20). -/
theorem Inv.flushAt {o : Nat} (h : Inv s) (hcfg : s.cfg.isSome = true) (ho : o < s.fb.size)
    (hmod : o % s.build.chunk = 0) : Inv { s with op := some (.flush o) } where
  memory := h.memory
  configured := h.configured
  initializing w ht a k hop := by cases hop
  flushing o' hop := by cases hop; exact ⟨hcfg, ho, hmod⟩
  frames := h.frames

/-- A failed INIT leaves the block unconfigured, so nothing is asked of the free framebuffer but its form (R60). -/
theorem Inv.initFailed (h : Inv s) (hcfg : s.cfg = none) : Inv s.initFailed :=
  .of_unconfigured_idle (by simpa using hcfg) (by simp) (by simp) h.frames

/-- A completed INIT: its operands and its framebuffer are what a record of `cfg` asks for (R10, R11, R13). -/
theorem Inv.initCompleted {w ht : Int} {a : DeviceAddress} {k : Nat} (h : Inv s) (hop : s.op = some (.init w ht a k)) :
    Inv (s.configured w ht a) where
  memory := h.memory
  configured c hc := by
    obtain ⟨-, hd, hcap, hfb, -⟩ := h.initializing w ht a k hop
    cases hc
    have hsize : s.fb.size = fbLength w ht := by simp [hfb]
    exact ⟨hd, hsize, hsize.trans_le hcap⟩
  initializing w' ht' a' k' ho := by simp at ho
  flushing o ho := by simp at ho
  frames := h.frames

end Invariant

/-! ## The invariant at reset and across a step -/

/-- A command frame is legal (R42, R44). -/
theorem legalFrame_command (c : Command) : legalFrame c.frame = true := rfl

/-- A data frame with a payload is legal (R43, R44). -/
theorem legalFrame_data {p : List Byte} (hp : p ≠ []) : legalFrame (ctrlData :: p) = true := by
  obtain ⟨v, rest, rfl⟩ := List.exists_cons_of_ne_nil hp
  rfl

/-- Before the last chunk, a chunk is `CHUNK` bytes (R73). -/
theorem State.chunkEnd_of_lt {s : State} {o : Nat} (h : s.chunkEnd o < s.fb.size) :
    s.chunkEnd o = o + s.build.chunk := by
  simp only [State.chunkEnd] at h ⊢; omega

/-- The write of a command keeps the invariant. -/
theorem sendCommand_inv {c : Command} {s t : State} (hs : Inv s) (h : sendCommand c s = .next t) : Inv t := by
  obtain ⟨w, ht, a, k, hop, -, hcase⟩ := sendCommand_cases h
  obtain ⟨hcfg, hd, hcap, hfb, -⟩ := hs.initializing w ht a k hop
  have hans (rest : List (Option Answer)) (r : Answer) : Inv (s.answered rest ⟨a, c.frame, r⟩) :=
    hs.answered rest (legalFrame_command c)
  rcases hcase with ⟨-, rfl⟩ | ⟨rest, -, rfl⟩ | ⟨rest, -, rfl⟩ | ⟨rest, -, hk, rfl⟩ | ⟨rest, -, -, rfl⟩
  case inl => exact hs
  case inr.inl => exact hs.congr
  case inr.inr.inl => exact (hans rest _).initFailed hcfg
  case inr.inr.inr.inl => exact (hans rest _).initAt a hcfg hd hcap hfb (by omega)
  case inr.inr.inr.inr => exact (hans rest _).initCompleted hop

/-- The write of a payload keeps the invariant. -/
theorem sendData_inv {p : List Byte} {s t : State} (hs : Inv s) (h : sendData p s = .next t) : Inv t := by
  obtain ⟨o, c, hop, hcfg, ho, rfl, hcase⟩ := sendData_cases h
  obtain ⟨hsome, -, hmod⟩ := hs.flushing o hop
  have hans (rest : List (Option Answer)) (r : Answer) : Inv (s.answered rest ⟨c.addr, ctrlData :: s.chunkAt o, r⟩) :=
    hs.answered rest (legalFrame_data (State.chunkAt_ne_nil ho))
  rcases hcase with ⟨-, rfl⟩ | ⟨rest, -, rfl⟩ | ⟨rest, -, rfl⟩ | ⟨rest, -, hend, rfl⟩ | ⟨rest, -, -, rfl⟩
  case inl => exact hs
  case inr.inl => exact hs.congr
  case inr.inr.inl => exact (hans rest _).endWith _
  case inr.inr.inr.inl =>
    have hmod' : s.chunkEnd o % s.build.chunk = 0 := by rw [State.chunkEnd_of_lt hend, Nat.add_mod_right, hmod]
    exact (hans rest _).flushAt hsome hend hmod'
  case inr.inr.inr.inr => exact (hans rest _).endWith _

/-- Every instruction keeps the invariant. -/
theorem exec_inv {i : Instr} {s t : State} (hs : Inv s) (h : exec i s = .next t) : Inv t := by
  rcases exec_cases h with ⟨o, -, rfl⟩ | ⟨-, why, rfl⟩ | ⟨-, w, ht, a, -, -, -, rfl⟩ |
      ⟨hop, w, ht, a, -, hcfg, hd, hcap, rfl⟩ | ⟨hop, c, x, y, color, m, -, -, hplot, rfl⟩ |
      ⟨hop, c, color, -, -, rfl⟩ | ⟨hop, c, string, x, y, color, m, -, -, hplot, rfl⟩ |
      ⟨-, -, hcfg, ⟨-, rfl⟩ | ⟨hpos, rfl⟩⟩ | ⟨c, -, hsend⟩ | ⟨p, -, hsend⟩
  · exact hs.congr
  · exact hs.congr
  · exact hs.endWith _
  · have hzero : Inv { s with fb := Memory.uniform (fbLength w ht) 0x00 } :=
      .of_unconfigured_idle hcfg hop (Memory.uniform_wf _ _) hs.frames
    exact hzero.initAt a hcfg hd hcap rfl (by omega)
  · obtain ⟨hm, hsize, -⟩ := plot_ok hs.memory hplot
    exact (hs.draw hop hm hsize).endWith _
  · exact (hs.draw hop (Memory.uniform_wf _ _) (Memory.uniform_size _ _)).endWith _
  · obtain ⟨hm, hsize⟩ := plotAll_ok _ hs.memory hplot
    exact (hs.draw hop hm hsize).endWith _
  · exact hs.endWith _
  · exact hs.flushAt hcfg hpos (Nat.zero_mod _)
  · exact sendCommand_inv hs hsend
  · exact sendData_inv hs hsend

/-- Settles O3, by the three things a step can be: a reset, an idle step, or an instruction. -/
theorem stepKeepsInvariant : Obligations.StepKeepsInvariant := by
  intro s t hs h
  rcases step_cases h with ⟨rest, -, rfl⟩ | ⟨-, -, rfl⟩ | ⟨code, i, -, -, -, hexec⟩
  · exact .of_unconfigured_idle rfl rfl rfl (by simp)
  · exact hs.congr
  · exact exec_inv hs.congr hexec

/-- Settles O1: these are the reset values of the three fields. -/
theorem resetIsUnconfigured : Obligations.ResetIsUnconfigured := ⟨rfl, rfl, rfl⟩

/-- Settles O2: the reset state is unconfigured and idle, its empty framebuffer is canonical, and `H` is empty. -/
theorem resetMeetsInvariant : Obligations.ResetMeetsInvariant :=
  .of_unconfigured_idle rfl rfl reset_fb_wf (by simp [State.reset])

/-! ## Who writes the configuration (R13, R61) -/

/-- The write of a command leaves `cfg` alone, unless it is entry 16 of INIT, answered `Ok`. -/
theorem sendCommand_cfg {c : Command} {s t : State} (h : sendCommand c s = .next t) :
    t.cfg = s.cfg ∨ ∃ w ht a rest, s.op = some (.init w ht a 16) ∧ s.answers = some .ok :: rest ∧
      t = (s.answered rest ⟨a, c.frame, .ok⟩).configured w ht a := by
  obtain ⟨w, ht, a, k, hop, hseq, ⟨-, rfl⟩ | ⟨rest, -, rfl⟩ | ⟨rest, -, rfl⟩ | ⟨rest, -, -, rfl⟩ | ⟨rest, ha, hk, rfl⟩⟩ :=
    sendCommand_cases h
  any_goals exact .inl rfl
  have hlt : k < 17 := by
    by_contra hge
    rw [Vector.getElem?_eq_none (by omega)] at hseq
    cases hseq
  obtain rfl : k = 16 := by omega
  exact .inr ⟨w, ht, a, rest, hop, ha, rfl⟩

/-- The write of a payload leaves the block's persistent state alone (R77). -/
theorem sendData_persistent {p : List Byte} {s t : State} (h : sendData p s = .next t) :
    t.cfg = s.cfg ∧ t.fb = s.fb := by
  obtain ⟨o, c, -, -, -, -, ⟨-, rfl⟩ | ⟨_, -, rfl⟩ | ⟨_, -, rfl⟩ | ⟨_, -, -, rfl⟩ | ⟨_, -, -, rfl⟩⟩ :=
    sendData_cases h <;> simp

/-- Only the frame of a command can write `cfg`. -/
theorem exec_cfg {i : Instr} {s t : State} (h : exec i s = .next t) :
    t.cfg = s.cfg ∨ ∃ c, sendCommand c s = .next t := by
  rcases exec_cases h with ⟨_, -, rfl⟩ | ⟨-, _, rfl⟩ | ⟨-, _, _, _, -, -, -, rfl⟩ | ⟨-, _, _, _, -, -, -, -, rfl⟩ |
      ⟨-, _, _, _, _, _, -, -, -, rfl⟩ | ⟨-, _, _, -, -, rfl⟩ | ⟨-, _, _, _, _, _, _, -, -, -, rfl⟩ |
      ⟨-, -, -, ⟨-, rfl⟩ | ⟨-, rfl⟩⟩ | ⟨c, -, hsend⟩ | ⟨_, -, hsend⟩
  · exact .inl (State.hold_cfg s i)
  any_goals exact .inl rfl
  · exact .inr ⟨c, hsend⟩
  · exact .inl (sendData_persistent hsend).1

/-- What a step but for reset can do to `cfg`: nothing, or record the operands of the INIT that ends with it. -/
theorem step_cfg {s t : State} (hn : s.noReset = true) (h : step s = .next t) :
    t.cfg = s.cfg ∨ ∃ w ht a rest, s.op = some (.init w ht a 16) ∧ s.answers = some .ok :: rest ∧
      t.cfg = some ⟨w, ht, a⟩ ∧ t.op = none ∧ t.results = s.results ++ [.ok] := by
  rcases step_cases h with ⟨rest, hin, -⟩ | ⟨-, -, rfl⟩ | ⟨code, i, -, -, -, hexec⟩
  · simp [State.noReset, hin] at hn
  · exact .inl rfl
  · rcases exec_cfg hexec with hcfg | ⟨c, hsend⟩
    · exact .inl (by simpa using hcfg)
    · rcases sendCommand_cfg hsend with hcfg | ⟨w, ht, a, rest, hop, ha, rfl⟩
      · exact .inl (by simpa using hcfg)
      · exact .inr ⟨w, ht, a, rest, by simpa using hop, by simpa using ha, by simp⟩

/-- A configured block keeps its configuration: no INIT is in progress there. -/
theorem step_configured {s t : State} {c : DisplayConfig} (hs : Inv s) (hc : s.cfg = some c) (hn : s.noReset = true)
    (h : step s = .next t) : t.cfg = some c := by
  rcases step_cfg hn h with hcfg | ⟨w, ht, a, rest, hop, -⟩
  · rw [hcfg, hc]
  · obtain ⟨hnone, -⟩ := hs.initializing w ht a 16 hop
    simp [hnone] at hc

/-- Settles O13: only the end of INIT writes `cfg`, and INIT is in progress only on an unconfigured block. -/
theorem configurationIsImmutable : Obligations.ConfigurationIsImmutable := by
  intro s t hn h
  refine ⟨?_, fun hs c hc => step_configured hs hc hn h⟩
  rcases step_cfg hn h with hcfg | ⟨w, ht, a, rest, hop, ha, hend⟩
  · exact .inl hcfg
  · exact .inr ⟨w, ht, a, 16, rest, hop, rfl, ha, hend⟩

/-! ## What an idle block does not look at -/

/-- Without an INIT in progress no command is due. -/
theorem sendCommand_idle {c : Command} {s : State} (hop : s.op = none) : sendCommand c s = .refused .frameNotDue := by
  simp [sendCommand, hop]

/-- Without a SHOW in progress no payload is due. -/
theorem sendData_idle {p : List Byte} {s : State} (hop : s.op = none) : sendData p s = .refused .frameNotDue := by
  simp [sendData, hop]

/-- What an idle block makes of INIT (R55, R61, R90, R102). -/
theorem exec_init_idle {s : State} (w ht : Int) (a : DeviceAddress) (hop : s.op = none) :
    exec (.init w ht a) s =
      if s.cfg.isSome then .next (s.refuse .alreadyConfigured)
      else if ¬ValidDims w ht then .next (s.endWith (.error .configError))
      else if s.build.fbCapacity < fbLength w ht then .next (s.refuse .overCapacity)
      else .next { s with fb := Memory.uniform (fbLength w ht) 0x00, op := some (.init w ht a 0) } :=
  whenIdle_idle hop

section Init

variable {s : State} {w ht : Int} (a : DeviceAddress) (hop : s.op = none) (hcfg : s.cfg = none)
include hop hcfg

/-- INIT with invalid dimensions ends with `ConfigError` (R90). -/
theorem exec_init_invalid (hd : ¬ValidDims w ht) :
    exec (.init w ht a) s = .next (s.endWith (.error .configError)) := by
  rw [exec_init_idle w ht a hop, if_neg (by simp [hcfg]), if_pos hd]

/-- INIT beyond `FB_CAPACITY` is refused (R102). -/
theorem exec_init_overCapacity (hd : ValidDims w ht) (hcap : ¬fbLength w ht ≤ s.build.fbCapacity) :
    exec (.init w ht a) s = .next (s.refuse .overCapacity) := by
  rw [exec_init_idle w ht a hop, if_neg (by simp [hcfg]), if_neg (not_not.mpr hd), if_pos (not_le.mp hcap)]

/-- Any other INIT allocates `fb` and starts (R57, R58). -/
theorem exec_init_starts (hd : ValidDims w ht) (hcap : fbLength w ht ≤ s.build.fbCapacity) :
    exec (.init w ht a) s =
      .next { s with fb := Memory.uniform (fbLength w ht) 0x00, op := some (.init w ht a 0) } := by
  rw [exec_init_idle w ht a hop, if_neg (by simp [hcfg]), if_neg (not_not.mpr hd), if_neg (not_lt.mpr hcap)]

end Init

section Answers

variable {s t : State} (l : List (Option Answer))

/-- The end of a drawing operation passes the transport's answers on. -/
theorem State.drawn_answers {r : Except Nat Memory} (h : s.drawn r = .next t) :
    State.drawn { s with answers := l } r = .next { t with answers := l } := by
  cases r with
  | error j => cases h
  | ok m => cases h; rfl

/-- An operation that needs a configured block passes the transport's answers on if its action does. -/
theorem whenConfigured_answers {i : Instr} {act act' : DisplayConfig → Host.Outcome State Fault Refusal}
    (hop : s.op = none) (h : whenIdle i s (whenConfigured s act) = .next t)
    (hact : ∀ c, act c = .next t → act' c = .next { t with answers := l }) :
    whenIdle i { s with answers := l } (whenConfigured { s with answers := l } act') = .next { t with answers := l } := by
  rw [whenIdle_idle hop] at h
  refine (whenIdle_idle (s := { s with answers := l }) hop).trans ?_
  rcases Option.eq_none_or_eq_some s.cfg with hcfg | ⟨c, hcfg⟩
  · cases (whenConfigured_none hcfg).symm.trans h
    exact whenConfigured_none (s := { s with answers := l }) hcfg
  · rw [whenConfigured_some hcfg] at h
    exact (whenConfigured_some (s := { s with answers := l }) hcfg).trans (hact c h)

/-- An idle block makes no bus write: it passes the transport's answers on as they are. -/
theorem exec_idle_answers {i : Instr} (hop : s.op = none) (h : exec i s = .next t) :
    exec i { s with answers := l } = .next { t with answers := l } := by
  cases i with
  | init w ht a =>
    rw [exec_init_idle w ht a hop] at h
    rw [exec_init_idle w ht a (s := { s with answers := l }) hop]
    dsimp only
    split_ifs at h ⊢ <;> cases h <;> rfl
  | setPixel x y color => exact whenConfigured_answers l hop h fun _ => State.drawn_answers l
  | fill color => exact whenConfigured_answers l hop h fun _ hact => by cases hact; rfl
  | showFb =>
    refine whenConfigured_answers l hop h fun _ hact => ?_
    dsimp only at hact ⊢
    split_ifs at hact ⊢ <;> cases hact <;> rfl
  | drawText string x y color => exact whenConfigured_answers l hop h fun _ => State.drawn_answers l
  | reserved101 | reserved110 | reserved111 =>
    cases (whenIdle_idle hop).symm.trans h
    exact whenIdle_idle hop
  | dataFrame p => cases (sendData_idle hop).symm.trans h
  | _ => cases (sendCommand_idle hop).symm.trans h

/-- So does a step of an idle block. -/
theorem step_idle_answers (hop : s.op = none) (h : step s = .next t) :
    step { s with answers := l } = .next { t with answers := l } := by
  rcases step_cases h with ⟨rest, hin, rfl⟩ | ⟨hn, hf, rfl⟩ | ⟨code, i, hn, hf, hd, hexec⟩
  · exact step_reset hin
  · exact step_fetch_none hn hf
  · exact (step_fetch (s := { s with answers := l }) hn hf hd).trans
      (exec_idle_answers l (s := s.takeInput.accept) hop hexec)

end Answers

/-- A step of SHOW leaves the framebuffer alone, whatever the transport answers (R77). -/
theorem step_flush_fb {s t : State} {o : Nat} (hs : Inv s) (hn : s.noReset = true) (hop : s.op = some (.flush o))
    (h : step s = .next t) : t.fb = s.fb := by
  obtain ⟨-, ho, -⟩ := hs.flushing o hop
  rw [step_flush hn hop ho] at h
  exact (sendData_persistent h).2

/-- Settles O50, by the operation in progress: a configured block is in no INIT, SHOW leaves `fb` alone, and an idle block does
not look at the answers. -/
theorem framebufferIgnoresTheTransport : Obligations.FramebufferIgnoresTheTransport := by
  intro s t t' c answers hs hc hn h h'
  have hs' : Inv { s with answers := answers } := hs.congr
  have hcfg : t.cfg = some c := step_configured hs hc hn h
  have hcfg' : t'.cfg = some c := step_configured hs' hc hn h'
  refine ⟨hcfg.trans hcfg'.symm, ?_⟩
  match hop : s.op with
  | none =>
    rw [step_idle_answers answers hop h] at h'
    cases h'
    rfl
  | some (.init w ht a k) =>
    obtain ⟨hnone, -⟩ := hs.initializing w ht a k hop
    simp [hnone] at hc
  | some (.flush o) => exact (step_flush_fb hs hn hop h).trans (step_flush_fb hs' hn hop h').symm

/-- An operation that needs a configured block is refused by an unconfigured idle one (R102). -/
theorem whenConfigured_refused {i : Instr} {s : State} {act : DisplayConfig → Host.Outcome State Fault Refusal}
    (hop : s.op = none) (hcfg : s.cfg = none) :
    whenIdle i s (whenConfigured s act) = .next (s.refuse .unconfigured) := by
  rw [whenIdle_idle hop, whenConfigured_none hcfg]

/-- An unconfigured idle block never reads `fb`: it stays idle and passes `fb` on as it is, or starts INIT, which overwrites
it. -/
theorem exec_unconfigured_fb {i : Instr} {s t : State} (hop : s.op = none) (hcfg : s.cfg = none)
    (h : exec i s = .next t) :
    (t.op = none ∧ ∀ m, exec i { s with fb := m } = .next { t with fb := m }) ∨
      ∀ m, exec i { s with fb := m } = .next t := by
  cases i with
  | init w ht a =>
    by_cases hd : ValidDims w ht
    · by_cases hcap : fbLength w ht ≤ s.build.fbCapacity
      · cases (exec_init_starts a hop hcfg hd hcap).symm.trans h
        exact .inr fun m => exec_init_starts a hop hcfg hd hcap
      · cases (exec_init_overCapacity a hop hcfg hd hcap).symm.trans h
        exact .inl ⟨hop, fun m => exec_init_overCapacity a hop hcfg hd hcap⟩
    · cases (exec_init_invalid a hop hcfg hd).symm.trans h
      exact .inl ⟨rfl, fun m => exec_init_invalid a hop hcfg hd⟩
  | setPixel x y color | fill color | showFb | drawText string x y color =>
    cases (whenConfigured_refused hop hcfg).symm.trans h
    exact .inl ⟨hop, fun m => whenConfigured_refused hop hcfg⟩
  | reserved101 | reserved110 | reserved111 =>
    cases (whenIdle_idle hop).symm.trans h
    exact .inl ⟨hop, fun m => whenIdle_idle hop⟩
  | dataFrame p => cases (sendData_idle hop).symm.trans h
  | _ => cases (sendCommand_idle hop).symm.trans h

/-- Settles O51: the outcome carries the other `fb` along, or INIT has overwritten both. -/
theorem unconfiguredFramebufferIsUnobservable : Obligations.UnconfiguredFramebufferIsUnobservable := by
  intro i s t m hop hcfg h
  rcases exec_unconfigured_fb hop hcfg h with ⟨hidle, hpass⟩ | hover
  · exact ⟨{ t with fb := m }, hpass m, rfl, by simp [hidle]⟩
  · exact ⟨t, hover m, rfl, fun _ => rfl⟩

end Sys2Proof.Machine
end

section
/-! Proofs of the memory statements (20_memory.md): what a step appends to the bus history, and what the frame instructions
leave unchanged. -/

namespace Sys2Proof.Machine

/-! ## What a step appends to the bus history (R33, R36, R44) -/

/-- The write of a command stands in `H` once it is answered; it goes to INIT's address operand. -/
theorem sendCommand_history {c : Command} {s t : State} (h : sendCommand c s = .next t) :
    t.history = s.history ∨
      ∃ w ht a k r, s.op = some (.init w ht a k) ∧ t.history = s.history ++ [⟨a, c.frame, r⟩] := by
  obtain ⟨w, ht, a, k, hop, -, ⟨-, rfl⟩ | ⟨_, -, rfl⟩ | ⟨_, -, rfl⟩ | ⟨_, -, -, rfl⟩ | ⟨_, -, -, rfl⟩⟩ :=
    sendCommand_cases h
  · exact .inl rfl
  · exact .inl rfl
  all_goals exact .inr ⟨w, ht, a, k, _, hop, rfl⟩

/-- The write of a payload stands in `H` once it is answered; it goes to the configured address and is not empty. -/
theorem sendData_history {p : List Byte} {s t : State} (h : sendData p s = .next t) :
    t.history = s.history ∨
      ∃ o c r, s.op = some (.flush o) ∧ s.cfg = some c ∧ p ≠ [] ∧
        t.history = s.history ++ [⟨c.addr, ctrlData :: p, r⟩] := by
  obtain ⟨o, c, hop, hcfg, ho, rfl, hcase⟩ := sendData_cases h
  have hne := State.chunkAt_ne_nil ho
  rcases hcase with ⟨-, rfl⟩ | ⟨_, -, rfl⟩ | ⟨_, -, rfl⟩ | ⟨_, -, -, rfl⟩ | ⟨_, -, -, rfl⟩
  · exact .inl rfl
  · exact .inl rfl
  all_goals exact .inr ⟨o, c, _, hop, hcfg, hne, rfl⟩

/-- Only the frames write to the bus. -/
theorem exec_history {i : Instr} {s t : State} (h : exec i s = .next t) :
    t.history = s.history ∨ (∃ c, sendCommand c s = .next t) ∨ ∃ p, sendData p s = .next t := by
  rcases exec_cases h with ⟨_, -, rfl⟩ | ⟨-, _, rfl⟩ | ⟨-, _, _, _, -, -, -, rfl⟩ | ⟨-, _, _, _, -, -, -, -, rfl⟩ |
      ⟨-, _, _, _, _, _, -, -, -, rfl⟩ | ⟨-, _, _, -, -, rfl⟩ | ⟨-, _, _, _, _, _, _, -, -, -, rfl⟩ |
      ⟨-, -, -, ⟨-, rfl⟩ | ⟨-, rfl⟩⟩ | ⟨c, -, hsend⟩ | ⟨p, -, hsend⟩
  · exact .inl (State.hold_history s i)
  any_goals exact .inl rfl
  · exact .inr (.inl ⟨c, hsend⟩)
  · exact .inr (.inr ⟨p, hsend⟩)

/-- Settles O15: a step appends what its instruction appends, and only the two kinds of frame append anything. -/
theorem historyGrowsByLegalFrames : Obligations.HistoryGrowsByLegalFrames := by
  intro s t hn h
  rcases step_cases h with ⟨rest, hin, -⟩ | ⟨-, -, rfl⟩ | ⟨code, i, -, -, -, hexec⟩
  · simp [State.noReset, hin] at hn
  · exact .inl rfl
  · rcases exec_history hexec with hsame | ⟨c, hsend⟩ | ⟨p, hsend⟩
    · exact .inl hsame
    · refine (sendCommand_history hsend).imp_right fun ⟨w, ht, a, k, r, hop, hhist⟩ => ?_
      exact ⟨_, hhist, legalFrame_command c, .inl ⟨w, ht, a, k, hop, rfl, rfl⟩⟩
    · refine (sendData_history hsend).imp_right fun ⟨o, c, r, hop, hcfg, hp, hhist⟩ => ?_
      exact ⟨_, hhist, legalFrame_data hp, .inr ⟨o, c, hop, hcfg, rfl, rfl⟩⟩

/-! ## What the frame instructions leave unchanged (R29, R55, R60, R77) -/

/-- An instruction that is encoded as a frame sends a command or a payload (R42, R43, R52). -/
theorem exec_of_encode_frame {i : Instr} {b : Build} {bytes : List Byte} (h : encode b i = .frame bytes) :
    (∃ c, ∀ s, exec i s = sendCommand c s) ∨ ∃ p, ∀ s, exec i s = sendData p s := by
  cases i with
  | init | setPixel | fill | showFb | drawText | reserved101 | reserved110 | reserved111 => cases h
  | dataFrame p => exact .inr ⟨p, fun _ => rfl⟩
  | _ => exact .inl ⟨_, fun _ => rfl⟩

/-- The write of a command marks no refused request. -/
theorem sendCommand_refusals {c : Command} {s t : State} (h : sendCommand c s = .next t) :
    t.refusals = s.refusals := by
  obtain ⟨w, ht, a, k, -, -, ⟨-, rfl⟩ | ⟨_, -, rfl⟩ | ⟨_, -, rfl⟩ | ⟨_, -, -, rfl⟩ | ⟨_, -, -, rfl⟩⟩ :=
    sendCommand_cases h <;> rfl

/-- The write of a command leaves the framebuffer alone and draws no free value, unless the transport fails it (R60). -/
theorem sendCommand_fb {c : Command} {s t : State} (h : sendCommand c s = .next t) :
    (t.draws = s.draws ∧ t.fb = s.fb) ∨
      ∃ w ht a k rest, s.op = some (.init w ht a k) ∧ s.answers = some .transportError :: rest := by
  obtain ⟨w, ht, a, k, hop, -, ⟨-, rfl⟩ | ⟨_, -, rfl⟩ | ⟨rest, ha, -⟩ | ⟨_, -, -, rfl⟩ | ⟨_, -, -, rfl⟩⟩ :=
    sendCommand_cases h
  case inr.inr.inl => exact .inr ⟨w, ht, a, k, rest, hop, ha⟩
  all_goals exact .inl ⟨rfl, rfl⟩

/-- The write of a payload marks no refused request and draws no free value. -/
theorem sendData_marks {p : List Byte} {s t : State} (h : sendData p s = .next t) :
    t.refusals = s.refusals ∧ t.draws = s.draws := by
  obtain ⟨o, c, -, -, -, -, ⟨-, rfl⟩ | ⟨_, -, rfl⟩ | ⟨_, -, rfl⟩ | ⟨_, -, -, rfl⟩ | ⟨_, -, -, rfl⟩⟩ :=
    sendData_cases h <;> exact ⟨rfl, rfl⟩

/-- Settles O25, by the two kinds of frame: a command can end INIT or be failed by the transport, a payload changes neither
`cfg` nor `fb`. -/
theorem frameInstructionsFrame : Obligations.FrameInstructionsFrame := by
  intro i b bytes s t henc h
  rcases exec_of_encode_frame henc with ⟨c, hexec⟩ | ⟨p, hexec⟩ <;> rw [hexec] at h
  · obtain ⟨hinbox, hheld⟩ := sendCommand_host h
    refine ⟨sendCommand_build h, hinbox, hheld, sendCommand_refusals h, ?cfg, ?fb⟩
    case cfg =>
      refine (sendCommand_cfg h).imp_right fun ⟨w, ht, a, rest, hop, ha, ht'⟩ => ?_
      exact ⟨w, ht, a, 16, rest, hop, rfl, ha, by rw [ht', State.configured_cfg]⟩
    case fb =>
      refine (sendCommand_fb h).imp_left fun ⟨hdraws, hfb⟩ => ?_
      exact ⟨hdraws, by rw [hfb], fun x => by rw [hfb]⟩
  · obtain ⟨hinbox, hheld⟩ := sendData_host h
    obtain ⟨hrefusals, hdraws⟩ := sendData_marks h
    obtain ⟨hcfg, hfb⟩ := sendData_persistent h
    exact ⟨sendData_build h, hinbox, hheld, hrefusals, .inl hcfg, .inl ⟨hdraws, by rw [hfb], fun x => by rw [hfb]⟩⟩

end Sys2Proof.Machine
end

section
/-! Proofs of the encoding statements (30_encoding.md): the decoder and the encoder are inverse on what is well formed, and the
decoder accepts exactly the legal frames. -/

namespace Sys2Proof

/-! ## Decoding what is encoded (R42, R43, R46 to R49, R52) -/

/-- No two rows of the table have one command: a row's command is found as that row (log 18). -/
theorem commandRow_of_mem : ∀ row ∈ commandRows, commandRow commandRows row.2 = some row.1 := by decide

/-- A named command decodes to its row, not to `cmdFrame` (R52). -/
theorem decode_encode_named (b : Build) {i : Instr} (h : i ∈ commandRows.map Prod.fst) :
    decode b (encode b i) = .ok i := by
  obtain ⟨⟨i, c⟩, hrow, rfl⟩ := List.mem_map.mp h
  have henc : encode b i = .frame c.frame := (commandRows_sound b _ hrow).1
  have hfound : commandRow commandRows c = some i := commandRow_of_mem _ hrow
  rw [henc, decode_command, hfound, Option.getD_some]

/-- An address or character code that fits its wires is read as it stands (R47, R49). -/
theorem readUnsigned_of_lt {width n : Nat} (h : n < 2 ^ width) : readUnsigned width n = n := Nat.mod_eq_of_lt h

/-- Whatever is on the wires, the address or code read fits. -/
theorem readUnsigned_lt (width n : Nat) : readUnsigned width n < 2 ^ width := Nat.mod_lt _ (by positivity)

/-- A string whose codes fit their wires is read as it stands (R49). -/
theorem map_readUnsigned_of_lt {width : Nat} {string : List CharCode} (h : ∀ c ∈ string, c < 2 ^ width) :
    string.map (readUnsigned width) = string :=
  (List.map_congr_left fun c hc => readUnsigned_of_lt (h c hc)).trans (List.map_id' string)

/-- Settles O6, by the instruction: a request's operands are read back from their inputs, a frame's bytes from the write. -/
theorem decodeEncodeRoundTrip : Obligations.DecodeEncodeRoundTrip := by
  intro b i hwf
  cases i with
  | init w h a =>
    obtain ⟨hw, hh, ha⟩ := of_decide_eq_true hwf
    simp [decode, encode, decodeRequest, readSigned_writeSigned hw, readSigned_writeSigned hh, readUnsigned_of_lt ha]
  | setPixel x y color =>
    obtain ⟨hx, hy⟩ := of_decide_eq_true hwf
    simp [decode, encode, decodeRequest, readSigned_writeSigned hx, readSigned_writeSigned hy]
  | fill color => simp [decode, encode, decodeRequest]
  | showFb | reserved101 | reserved110 | reserved111 => rfl
  | drawText string x y color =>
    simp only [Instr.wellFormed, Bool.and_eq_true, decide_eq_true_eq, List.all_eq_true] at hwf
    obtain ⟨⟨hx, hy⟩, hstring⟩ := hwf
    simp [decode, encode, decodeRequest, readSigned_writeSigned hx, readSigned_writeSigned hy,
      map_readUnsigned_of_lt hstring]
  | cmdFrame opcode operands =>
    have hnone : commandRow commandRows ⟨opcode, operands⟩ = none := eq_of_beq hwf
    exact (decode_command b ⟨opcode, operands⟩).trans (by rw [hnone, Option.getD_none])
  | dataFrame p =>
    obtain ⟨hpos, hle⟩ := of_decide_eq_true hwf
    exact decode_data b (List.length_pos_iff.mp hpos) hle
  | _ => exact decode_encode_named b (by decide)

/-! ## Encoding what is decoded (R42, R43, R45) -/

/-- A byte sequence decodes to an instruction exactly if it is a command frame, and the instruction its named row or
`cmdFrame`, or a data frame of 1 to `CHUNK` bytes, and the instruction that payload's (R42 to R45). -/
theorem decode_frame_eq_ok {b : Build} {bytes : List Byte} {i : Instr} :
    decode b (.frame bytes) = .ok i ↔
      (∃ c : Command, bytes = c.frame ∧ i = (commandRow commandRows c).getD (.cmdFrame c.opcode c.operands)) ∨
      (∃ p, bytes = ctrlData :: p ∧ p ≠ [] ∧ p.length ≤ b.chunk ∧ i = .dataFrame p) := by
  constructor
  · intro h
    match bytes with
    | [] | [_] => cases h
    | control :: first :: rest =>
      simp only [decode, decodeFrame] at h
      split_ifs at h with hcmd hdata hlen
      · cases h; exact .inl ⟨⟨first, rest⟩, by rw [hcmd]; rfl, rfl⟩
      · cases h; exact .inr ⟨first :: rest, by rw [hdata], by simp, hlen, rfl⟩
  · rintro (⟨c, rfl, rfl⟩ | ⟨p, rfl, hne, hlen, rfl⟩)
    · exact decode_command b c
    · exact decode_data b hne hlen

/-- What a command frame decodes to is well formed and is encoded as that frame again. -/
theorem encode_decoded_command (b : Build) {c : Command} {i : Instr}
    (h : i = (commandRow commandRows c).getD (.cmdFrame c.opcode c.operands)) :
    i.wellFormed b = true ∧ encode b i = .frame c.frame := by
  cases hrow : commandRow commandRows c with
  | none =>
    obtain rfl : i = .cmdFrame c.opcode c.operands := by rw [h, hrow, Option.getD_none]
    exact ⟨beq_iff_eq.mpr hrow, rfl⟩
  | some named =>
    obtain rfl : i = named := by rw [h, hrow, Option.getD_some]
    exact (commandRow_sound hrow b).symm

/-- Whatever is on the operand inputs, what a request decodes to is well formed (R47, R49). -/
theorem decodeRequest_wellFormed (b : Build) (r : Request) : (decodeRequest b r).wellFormed b = true := by
  unfold decodeRequest
  split
  case h_1 => exact decide_eq_true ⟨readSigned_fits _ _, readSigned_fits _ _, readUnsigned_lt _ _⟩
  case h_2 => exact decide_eq_true ⟨readSigned_fits _ _, readSigned_fits _ _⟩
  case h_5 =>
    have hcoords : FitsSigned b.coordWidth (readSigned b.coordWidth r.x) ∧
        FitsSigned b.coordWidth (readSigned b.coordWidth r.y) := ⟨readSigned_fits _ _, readSigned_fits _ _⟩
    simp [Instr.wellFormed, hcoords, readUnsigned_lt]
  all_goals rfl

/-- Settles O7, by the two kinds of frame that decode; a request always does. -/
theorem decodedFrameEncodesBack : Obligations.DecodedFrameEncodesBack := by
  refine ⟨fun b bytes i h => ?frame, fun b r => ⟨_, rfl, decodeRequest_wellFormed b r⟩⟩
  case frame =>
    rcases decode_frame_eq_ok.mp h with ⟨c, rfl, hi⟩ | ⟨p, rfl, hne, hlen, rfl⟩
    · exact encode_decoded_command b hi
    · exact ⟨decide_eq_true ⟨List.length_pos_iff.mpr hne, hlen⟩, rfl⟩

/-! ## Which byte sequences decode (R44) -/

/-- A legal frame is a command frame, or 0x40 and a payload that is not empty (R44). -/
theorem legalFrame_iff {bytes : List Byte} :
    Machine.legalFrame bytes = true ↔ (∃ c : Command, bytes = c.frame) ∨ ∃ p, bytes = ctrlData :: p ∧ p ≠ [] := by
  constructor
  · intro h
    match bytes with
    | [] | [_] => cases h
    | control :: first :: rest =>
      rcases (Bool.or_eq_true _ _).mp h with hcmd | hdata
      · exact .inl ⟨⟨first, rest⟩, by rw [eq_of_beq hcmd]; rfl⟩
      · exact .inr ⟨first :: rest, by rw [eq_of_beq hdata], by simp⟩
  · rintro (⟨c, rfl⟩ | ⟨p, rfl, hne⟩)
    · exact Machine.legalFrame_command c
    · exact Machine.legalFrame_data hne

/-- Settles O8: of the two kinds of legal frame, only a data frame can be too long to decode. -/
theorem frameDecodesExactlyIfLegal : Obligations.FrameDecodesExactlyIfLegal := by
  intro b bytes
  constructor
  · rintro ⟨i, h⟩
    rcases decode_frame_eq_ok.mp h with ⟨c, rfl, -⟩ | ⟨p, rfl, hne, hlen, -⟩
    · have hctrl : ctrlCmd ≠ 0x40 := by decide
      exact ⟨Machine.legalFrame_command c, fun hhead => absurd (Option.some.inj hhead) hctrl⟩
    · exact ⟨Machine.legalFrame_data hne, fun _ => by rw [List.length_cons]; omega⟩
  · rintro ⟨hlegal, hbound⟩
    rcases legalFrame_iff.mp hlegal with ⟨c, rfl⟩ | ⟨p, rfl, hne⟩
    · exact ⟨_, decode_command b c⟩
    · have hlen : (ctrlData :: p).length ≤ 1 + b.chunk := hbound rfl
      exact ⟨_, decode_data b hne (by rw [List.length_cons] at hlen; omega)⟩

/-- Settles O9, word by word: each is decoded by evaluating the decoder of `Build.reference`. -/
theorem specWordsDecode : Obligations.SpecWordsDecode := by
  and_intros <;> rfl

end Sys2Proof
end

section
/-! Proofs of the statements about what the encoded instructions do (30_encoding.md): the write of a frame that is due, the
refusal of one that is not, the reserved codes, and DRAW_TEXT as SET_PIXELs. -/

namespace Sys2Proof.Machine

/-! ## A command frame (R42, R52) -/

/-- The command that is due is the entry of `INIT_SEQ` at INIT's index (R58). -/
theorem State.commandDue_eq_some {s : State} {c : Command} :
    s.commandDue = some c ↔ ∃ w h a k, s.op = some (.init w h a k) ∧ s.build.initSeq[k]? = some c := by
  constructor
  · intro hdue
    match hop : s.op with
    | none | some (.flush _) => simp [State.commandDue, hop] at hdue
    | some (.init w h a k) => exact ⟨w, h, a, k, rfl, by simpa [State.commandDue, hop] using hdue⟩
  · rintro ⟨w, h, a, k, hop, hc⟩
    simp [State.commandDue, hop, hc]

/-- A command that is not due is refused (log 12). -/
theorem sendCommand_not_due {c : Command} {s : State} (h : s.commandDue ≠ some c) :
    sendCommand c s = .refused .frameNotDue := by
  unfold sendCommand
  split
  · exact if_neg h
  · rfl

/-- The entry that is due, answered `Ok`: one write of its frame, after which INIT goes on or, after entry 16, is over. -/
theorem sendCommand_ok {s : State} {w h : Int} {a : DeviceAddress} {k : Nat} {c : Command}
    {rest : List (Option Answer)} (hop : s.op = some (.init w h a k)) (hc : s.build.initSeq[k]? = some c)
    (ha : s.answers = some .ok :: rest) :
    (k < 16 → sendCommand c s = .next { s with
      answers := rest, history := s.history ++ [⟨a, c.frame, .ok⟩], op := some (.init w h a (k + 1)) }) ∧
    (k = 16 → sendCommand c s = .next { s with
      answers := rest, history := s.history ++ [⟨a, c.frame, .ok⟩], op := none, cfg := some ⟨w, h, a⟩,
      results := s.results ++ [.ok] }) := by
  rw [sendCommand_answered hop hc ha]
  exact ⟨fun hk => congrArg _ (if_pos hk), fun hk => congrArg _ (if_neg (by omega))⟩

/-- Settles O24: CMD_FRAME sends its command. -/
theorem cmdFrameWritesTheCommand : Obligations.CmdFrameWritesTheCommand :=
  fun _ _ _ _ _ _ _ _ hop hc ha => sendCommand_ok hop hc ha

/-- A named row is encoded as the frame the table gives it (R52). -/
theorem encode_of_mem_frames {row : Instr × List Byte}
    (h : row ∈ commandRows.map fun named => (named.1, named.2.frame)) (b : Build) : encode b row.1 = .frame row.2 := by
  obtain ⟨named, hmem, rfl⟩ := List.mem_map.mp h
  exact (commandRows_sound b named hmem).1

/-- Settles O23: each row is encoded as its frame, so it sends the command with these bytes. -/
theorem namedCommandWritesItsFrame : Obligations.NamedCommandWritesItsFrame := by
  intro row hrow s w h a k c rest hop hc hbytes ha
  have henc : encode s.build row.1 = .frame c.frame :=
    (encode_of_mem_frames hrow s.build).trans (congrArg _ hbytes.symm)
  rw [exec_of_encode_command henc, ← hbytes]
  exact sendCommand_ok hop hc ha

/-! ## A data frame (R43) -/

/-- A payload that is not the chunk that is due is refused (log 12). -/
theorem sendData_not_due {p : List Byte} {s : State}
    (h : ¬∃ o c, s.op = some (.flush o) ∧ s.cfg = some c ∧ o < s.fb.size ∧ p = s.chunkAt o) :
    sendData p s = .refused .frameNotDue := by
  unfold sendData
  split
  · rename_i o c hop hcfg
    exact if_neg fun ⟨ho, hp⟩ => h ⟨o, c, hop, hcfg, ho, hp⟩
  · rfl

/-- Settles O26: a frame's instruction sends its command or its payload, and neither is due. -/
theorem framesOnlyWhereDue : Obligations.FramesOnlyWhereDue := by
  refine ⟨fun i b opcode operands s henc hnot => ?command, fun p s hnot => sendData_not_due hnot⟩
  case command =>
    rw [exec_of_encode_command (c := ⟨opcode, operands⟩) henc]
    exact sendCommand_not_due (mt State.commandDue_eq_some.mp hnot)

/-- Settles O38: the chunk that is due is written, and SHOW goes on exactly if bytes are left. -/
theorem dataFrameWritesTheChunk : Obligations.DataFrameWritesTheChunk := by
  rintro s c o e rest hop hcfg ho rfl ha
  have hsend : exec (.dataFrame (s.chunkAt o)) s = .next (s.afterChunk c.addr o rest .ok) :=
    sendData_answered hop ho hcfg ha
  exact ⟨fun hlt => hsend.trans (congrArg _ (if_pos hlt)), fun heq => hsend.trans (congrArg _ (if_neg heq.not_lt))⟩

/-! ## The reserved codes (R50) and DRAW_TEXT (R54, R83) -/

/-- Settles O48: an idle block refuses each of them. -/
theorem reservedCodesAreRefused : Obligations.ReservedCodesAreRefused :=
  fun _ hop => ⟨whenIdle_idle hop, whenIdle_idle hop, whenIdle_idle hop⟩

/-- Settles O43: both plot the pixels of the text on the framebuffer, in the same order. -/
theorem drawTextIsASequenceOfSetPixels : Obligations.DrawTextIsASequenceOfSetPixels := by
  intro s c string x y color hs hop hcfg
  obtain ⟨hdims, hsize, -⟩ := hs.configured c hcfg
  obtain ⟨m, hplot⟩ := plotAll_exists color hdims (textPixels s.build string x y) hs.memory hsize
  obtain ⟨results, hpixels⟩ := execAll_setPixels (textPixels s.build string x y) s m hop hcfg hplot
  have htext : exec (.drawText string x y color) s = .next ({ s with fb := m }.endWith .ok) := by
    simp [exec, execDrawText, hop, hcfg, hplot]
  exact ⟨_, _, htext, hpixels, by simp [State.endWith, hop]⟩

end Sys2Proof.Machine
end

section
/-! Proofs of the INIT statements (40_init.md): the allocated framebuffer, the refusals, and a whole INIT up to the
answer that ends it. -/

namespace Sys2Proof.Machine

/-! ## What INIT allocates (R57) -/

/-- On legal dimensions no truncation is in the framebuffer's length (R67). -/
theorem fbLength_cast {w h : Int} (hd : ValidDims w h) : (fbLength w h : Int) = h / 8 * w :=
  Int.toNat_of_nonneg (Int.mul_nonneg (by omega) (by omega))

/-- Every pixel of a framebuffer of zero bytes is off (R12). -/
theorem pixel_uniform_zero {c : DisplayConfig} (hd : ValidDims c.width c.height) {x y : Int} (hin : InRange c x y) :
    pixel c (Memory.uniform (fbLength c.width c.height) 0x00) x y = some false := by
  have hp := pag_eq_some.mpr ⟨hin, rfl⟩
  have hi := pag_index_lt hd hp
  rw [pixel, hp]
  simp [hi]

/-- Settles O19: INIT starts on `fbLength` bytes of 0x00. -/
theorem initAllocatesZeroFramebuffer : Obligations.InitAllocatesZeroFramebuffer := by
  intro s w h a hop hcfg hpos hmod hw hcap
  have hd : ValidDims w h := ⟨hpos, hmod, hw⟩
  have hcap' : fbLength w h ≤ s.build.fbCapacity := by have := fbLength_cast hd; omega
  exact ⟨_, exec_init_starts a hop hcfg hd hcap', rfl, Memory.uniform_wf _ _, Memory.ofBytes_bytes _,
    fun x y hx hxw hy hyh => pixel_uniform_zero (c := ⟨w, h, a⟩) hd ⟨hx, hxw, hy, hyh⟩⟩

/-! ## What INIT refuses (R61, R102) -/

/-- INIT on a configured block is refused, whatever its dimensions (R61, log 20). -/
theorem exec_init_configured {s : State} {c : DisplayConfig} (w h : Int) (a : DeviceAddress) (hop : s.op = none)
    (hcfg : s.cfg = some c) : exec (.init w h a) s = .next (s.refuse .alreadyConfigured) := by
  rw [exec_init_idle w h a hop, if_pos (by simp [hcfg])]

/-- Settles O20: each refusal is one of the first tests of INIT. -/
theorem initRefusals : Obligations.InitRefusals := by
  refine ⟨fun s c w h a hop hcfg => exec_init_configured w h a hop hcfg, fun s w h a hop hcfg hd hover => ?_⟩
  exact exec_init_overCapacity a hop hcfg hd (by have := fbLength_cast hd; omega)

/-! ## INIT up to the answer to one of its entries (R58, R60) -/

/-- INIT in progress after `n` steps of the host in which its first `k` entries, and no other, were answered `Ok`. -/
def State.initSent (s : State) (w h : Int) (a : DeviceAddress) (n k : Nat) (answers : List (Option Answer)) : State :=
  { s.afterHost n with
    fb := Memory.uniform (fbLength w h) 0x00
    op := some (.init w h a k)
    answers := answers
    history := s.history ++ (s.build.initSeq.toList.take k).map fun c => ⟨a, c.frame, .ok⟩ }

theorem State.initSent_takeInput (s : State) (w h : Int) (a : DeviceAddress) (n k : Nat)
    (answers : List (Option Answer)) :
    (s.initSent w h a n k answers).takeInput = s.initSent w h a (n + 1) k answers := by
  simp only [State.initSent, ← State.afterHost_add]
  rfl

/-- INIT from its acceptance to the answer `r` to entry `k`, the entries before it answered `Ok` and any waits before each
answer. -/
theorem exec_init_steps {s : State} {w h : Int} {a : DeviceAddress} {k : Nat} {c : Command} {r : Answer}
    {l rest : List (Option Answer)} (hop : s.op = none) (hcfg : s.cfg = none) (hd : ValidDims w h)
    (hcap : fbLength w h ≤ s.build.fbCapacity) (hhost : s.noResetWithin (l.length + 1))
    (hc : s.build.initSeq[k]? = some c) (ha : s.answers = l ++ some r :: rest)
    (hl : l.filterMap id = List.replicate k .ok) :
    ∃ s₁, exec (.init w h a) s = .next s₁ ∧ steps (l.length + 1) s₁ =
      .next ((s.initSent w h a (l.length + 1) k (some r :: rest)).afterCommand w h a k c rest r) := by
  have hk : k < 17 := (Vector.getElem?_eq_some_iff.mp hc).1
  obtain ⟨hbefore, hnext⟩ := State.noResetWithin_add hhost
  refine ⟨_, exec_init_starts a hop hcfg hd hcap, ?_⟩
  have hsent := steps_init l { s with fb := Memory.uniform (fbLength w h) 0x00, op := some (.init w h a 0) }
    w h a 0 k (some r :: rest) (by omega) hbefore rfl ha hl
  rw [Nat.zero_add] at hsent
  have hstep : step (s.initSent w h a l.length k (some r :: rest)) = _ :=
    step_init_answered (State.noResetWithin_succ hnext).1 rfl hc rfl
  rw [State.initSent_takeInput] at hstep
  exact (steps_add _ _ _ _ hsent).trans (steps_succ hstep)

/-- Settles O22: the answer to entry `k` is the `TransportError`. -/
theorem initStopsAtFailedEntry : Obligations.InitStopsAtFailedEntry := by
  intro s w h a k c l rest hop hcfg hd hcap hhost hc ha hl
  obtain ⟨s₁, hexec, hsteps⟩ := exec_init_steps (a := a) hop hcfg hd hcap hhost hc ha hl
  refine ⟨s₁, _, hexec, hsteps, ?_⟩
  simp [State.afterCommand, State.initFailed, State.endWith, State.answered, State.initSent, State.afterHost, hop,
    Command.frame, Command.bytes, ctrlCmd]

/-! ## The whole of INIT_SEQ (R41, R58) -/

theorem cmdStream_append (l l' : List BusRecord) : cmdStream (l ++ l') = cmdStream l ++ cmdStream l' := by
  induction l with
  | nil => rfl
  | cons r rest ih =>
    simp only [List.cons_append, cmdStream, ih]
    split
    · split <;> rfl
    · rfl

/-- Command-framed writes carry their commands (R41). -/
theorem cmdStream_frames (a : DeviceAddress) (r : Answer) (cs : List Command) :
    cmdStream (cs.map fun c => ⟨a, c.frame, r⟩) = cs.map Command.bytes := by
  induction cs with
  | nil => rfl
  | cons c rest ih => exact congrArg (c.bytes :: ·) ih

/-- Answers that end with an `Ok` and hold `n + 1` of them: before the last there are `n`. -/
theorem answers_split_last {l : List (Option Answer)} {n : Nat} (hl : l.filterMap id = List.replicate (n + 1) .ok)
    (hlast : l.getLast? = some (some .ok)) :
    ∃ l', l = l' ++ [some .ok] ∧ l'.filterMap id = List.replicate n .ok := by
  obtain ⟨l', rfl⟩ := List.getLast?_eq_some_iff.mp hlast
  refine ⟨l', rfl, ?_⟩
  simpa [List.replicate_succ'] using hl

/-- INIT after its last entry: configured, `OK`, every entry written. -/
theorem State.initSent_last {s : State} (w h : Int) (a : DeviceAddress) (n : Nat) (rest : List (Option Answer)) :
    (s.initSent w h a n 16 (some .ok :: rest)).afterCommand w h a 16 s.build.initSeq[16] rest .ok = { s with
      cfg := some ⟨w, h, a⟩
      fb := Memory.uniform (fbLength w h) 0x00
      op := none
      answers := rest
      inbox := s.inbox.drop n
      held := s.held ++ arrivals (s.inbox.take n)
      history := s.history ++ s.build.initSeq.toList.map fun c => ⟨a, c.frame, .ok⟩
      results := s.results ++ [.ok] } := by
  have hseq : s.build.initSeq.toList = s.build.initSeq.toList.take 16 ++ [s.build.initSeq[16]] := by
    conv_lhs => rw [← List.take_append_drop 16 s.build.initSeq.toList, List.drop_eq_getElem_cons (by simp)]
    simp
  rw [hseq]
  simp [State.afterCommand, State.configured, State.endWith, State.answered, State.initSent, State.afterHost]

/-- Settles O21: the answer to entry 16 is the last `Ok`. -/
theorem initSendsWholeSequence : Obligations.InitSendsWholeSequence := by
  intro s w h a l rest hop hcfg hd hcap hhost ha hl hlast
  obtain ⟨l', rfl, hl'⟩ := answers_split_last hl hlast
  rw [List.append_assoc] at ha
  rw [List.length_append] at hhost ⊢
  obtain ⟨s₁, hexec, hsteps⟩ :=
    exec_init_steps (a := a) (c := s.build.initSeq[16]) hop hcfg hd hcap hhost (by simp) ha hl'
  rw [State.initSent_last] at hsteps
  refine ⟨s₁, _, hexec, hsteps, ?_, ?_⟩
  · rw [← hop]; rfl
  · rw [cmdStream_append, cmdStream_frames]; rfl

end Sys2Proof.Machine
end

section
/-! Proofs of the SET_PIXEL statements (41_set_pixel.md): the page address generator as a bijection, the one byte and the one
bit that SET_PIXEL writes, and what every drawing operation leaves alone. -/

namespace Sys2Proof.Machine

/-! ## The page address generator (R63) -/

/-- R63's bound on the page: a page of the display. -/
theorem pag_page_lt {x y w h : Int} {p : PixelPlace} (hd : ValidDims w h) (hp : pag x y w h = some p) :
    (p.page : Int) < h / 8 := by
  obtain ⟨hr, rfl⟩ := pag_eq_some.mp hp
  dsimp only
  omega

/-- PAG can be undone: page and bit give the row, index and width give the column and the page (R63). -/
theorem pag_inverse {x y w h : Int} {p : PixelPlace} (hp : pag x y w h = some p) :
    8 * (p.page : Int) + p.bit = y ∧ (p.index : Int) % w = x ∧ (p.index : Int) / w = p.page := by
  obtain ⟨⟨hx, hxw, hy, -⟩, rfl⟩ := pag_eq_some.mp hp
  have hindex : ((y / 8 * w + x).toNat : Int) = x + y / 8 * w := by
    have := Int.mul_nonneg (show 0 ≤ y / 8 by omega) (show 0 ≤ w by omega)
    omega
  dsimp only
  refine ⟨by omega, ?_, ?_⟩
  · rw [hindex, Int.add_mul_emod_self_right, Int.emod_eq_of_lt hx hxw]
  · rw [hindex, Int.add_mul_ediv_right _ _ (by omega), Int.ediv_eq_zero_of_lt hx hxw]
    omega

/-- Every bit of the framebuffer is a pixel's: column `index % w` of page `index / w`, at that bit (R63). -/
theorem pag_surjective {w h : Int} (hd : ValidDims w h) {index bit : Nat} (hi : (index : Int) < h / 8 * w)
    (hb : bit ≤ 7) :
    ∃ p, pag (index % w) (8 * (index / w) + bit) w h = some p ∧ p.index = index ∧ p.bit = bit := by
  obtain ⟨hh, hmod, hw⟩ := hd
  have hpage : (index : Int) / w < h / 8 := Int.ediv_lt_of_lt_mul hw hi
  have hpage' : 0 ≤ (index : Int) / w := Int.ediv_nonneg (by omega) hw.le
  have hrow : (8 * ((index : Int) / w) + bit) / 8 = index / w := by omega
  have hindex : (index : Int) / w * w + index % w = index := Int.ediv_mul_add_emod _ _
  refine ⟨_, pag_eq_some.mpr ⟨⟨Int.emod_nonneg _ hw.ne', Int.emod_lt_of_pos _ hw, by omega, by omega⟩, rfl⟩, ?_, ?_⟩
  · dsimp only
    rw [hrow, hindex, Int.toNat_natCast]
  · dsimp only
    omega

/-- Settles O29: PAG's bounds, its inverse, its injectivity and its surjectivity. -/
theorem pagIsBijective : Obligations.PagIsBijective := by
  intro w h hd
  refine ⟨fun x y p hp => ?range, fun x y x' y' p p' hp hp' hi hb => pag_inj hd.2.2 hp hp' hi hb,
    fun index bit hi hb => ⟨_, _, pag_surjective hd hi hb⟩⟩
  case range =>
    have hbit := pag_bit_lt hp
    have hindex := pag_index_lt hd hp
    have hcast := fbLength_cast hd
    exact ⟨pag_page_lt hd hp, by omega, by omega, pag_inverse hp⟩

/-! ## SET_PIXEL in range and out of range (R64, R65) -/

/-- On an idle block the end of an operation only adds its result. -/
theorem State.endWith_idle {s : State} (hop : s.op = none) (r : Result) :
    s.endWith r = { s with results := s.results ++ [r] } := by
  rw [State.endWith, ← hop]

/-- SET_PIXEL on a configured idle block ends with the plotted framebuffer and `OK`. -/
theorem exec_setPixel {s : State} {c : DisplayConfig} {x y : Int} {color : Color} {m : Memory} (hop : s.op = none)
    (hcfg : s.cfg = some c) (hplot : plot c color s.fb x y = .ok m) :
    exec (.setPixel x y color) s = .next { s with fb := m, results := s.results ++ [.ok] } := by
  calc exec (.setPixel x y color) s
    _ = whenConfigured s fun c => s.drawn (plot c color s.fb x y) := whenIdle_idle hop
    _ = .next ({ s with fb := m }.endWith .ok) := by rw [whenConfigured_some hcfg, hplot, State.drawn_ok]
    _ = .next { s with fb := m, results := s.results ++ [.ok] } :=
      congrArg _ (State.endWith_idle (s := { s with fb := m }) hop .ok)

/-- Outside the display SET_PIXEL neither reads nor writes (R65). -/
theorem plot_outOfRange {c : DisplayConfig} {x y : Int} (color : Color) (m : Memory) (h : ¬InRange c x y) :
    plot c color m x y = .ok m := by
  simp [plot, pag_eq_none.mpr h]

/-- Inside the display SET_PIXEL paints the byte PAG names and leaves every other byte alone (R64). -/
theorem plot_inRange {c : DisplayConfig} {color : Color} {m m' : Memory} {x y : Int} (hm : m.wf = true)
    (hr : InRange c x y) (h : plot c color m x y = .ok m') :
    ∃ old, m.read (y / 8 * c.width + x).toNat = some old ∧
      ∀ i, m'.read i =
        if i = (y / 8 * c.width + x).toNat then some (paintByte color (y % 8).toNat old) else m.read i := by
  obtain ⟨-, -, ⟨hnone, -⟩ | ⟨p, old, hp, hold, hread⟩⟩ := plot_ok hm h
  · exact absurd hr (pag_eq_none.mp hnone)
  · obtain ⟨-, rfl⟩ := pag_eq_some.mp hp
    exact ⟨old, hold, hread⟩

/-- The painted byte as R64 writes it. -/
theorem paintByte_eq_ite (color : Color) (bit : Nat) (old : Byte) :
    paintByte color bit old = if color = .on then old ||| (1#8 <<< bit) else old &&& ~~~(1#8 <<< bit) := by
  cases color <;> rfl

/-- In a state of the invariant SET_PIXEL on a configured idle block always completes. -/
theorem Inv.plot_exists {s : State} {c : DisplayConfig} (hs : Inv s) (hcfg : s.cfg = some c) (color : Color) (x y : Int) :
    ∃ m, plot c color s.fb x y = .ok m := by
  obtain ⟨hd, hsize, -⟩ := hs.configured c hcfg
  exact Machine.plot_exists color x y hd hsize

/-- Settles O30: SET_PIXEL ends with the framebuffer in which the one byte is painted. -/
theorem setPixelInRange : Obligations.SetPixelInRange := by
  intro s c x y color hs hop hcfg hr
  obtain ⟨m, hplot⟩ := hs.plot_exists hcfg color x y
  obtain ⟨-, hsize, -⟩ := plot_ok hs.memory hplot
  obtain ⟨old, hold, hread⟩ := plot_inRange hs.memory hr hplot
  refine ⟨m, old, hold, exec_setPixel hop hcfg hplot, hsize, ?_, fun i hi => ?_⟩
  · rw [hread, if_pos rfl, paintByte_eq_ite]
  · rw [hread, if_neg hi]

/-- Settles O31: outside the display the plotted framebuffer is the old one. -/
theorem setPixelOutOfRangeChangesNothing : Obligations.SetPixelOutOfRangeChangesNothing :=
  fun s _ _ _ color hop hcfg hr => exec_setPixel hop hcfg (plot_outOfRange color s.fb hr)

/-! ## One bit only, and twice is once (R66) -/

/-- Inside the display SET_PIXEL leaves every bit but the one PAG names alone. -/
theorem plot_bit_other {c : DisplayConfig} {color : Color} {m m' : Memory} {x y : Int} {i b : Nat} (hm : m.wf = true)
    (hr : InRange c x y) (h : plot c color m x y = .ok m')
    (hne : (i, b) ≠ ((y / 8 * c.width + x).toNat, (y % 8).toNat)) :
    (m'.read i).map (·.getLsbD b) = (m.read i).map (·.getLsbD b) := by
  obtain ⟨old, hold, hread⟩ := plot_inRange hm hr h
  rw [hread]
  split
  · rename_i hi
    have hb : b ≠ (y % 8).toNat := fun hb => hne (Prod.ext hi hb)
    rw [hi, hold, Option.map_some, Option.map_some, paintByte_getLsbD _ _ _ _ (by omega), if_neg hb]
  · rfl

/-- Painting a byte twice is painting it once. -/
@[simp] theorem paintByte_paintByte (color : Color) (bit : Nat) (old : Byte) :
    paintByte color bit (paintByte color bit old) = paintByte color bit old := by
  cases color with
  | on => simp [paintByte, BitVec.or_assoc]
  | off => simp [paintByte, BitVec.and_assoc]

/-- A second SET_PIXEL of the same pixel and colour finds the framebuffer as it would leave it. -/
theorem plot_idempotent {c : DisplayConfig} {color : Color} {m m' : Memory} {x y : Int} (hm : m.wf = true)
    (hd : ValidDims c.width c.height) (hs : m.size = fbLength c.width c.height) (h : plot c color m x y = .ok m') :
    plot c color m' x y = .ok m' := by
  by_cases hr : InRange c x y
  · obtain ⟨hm', hs', -⟩ := plot_ok hm h
    obtain ⟨m₂, h₂⟩ := plot_exists color x y hd (hs'.trans hs)
    obtain ⟨hm₂, hs₂, -⟩ := plot_ok hm' h₂
    obtain ⟨old, hold, hread⟩ := plot_inRange hm hr h
    obtain ⟨new, hnew, hread₂⟩ := plot_inRange hm' hr h₂
    obtain rfl : paintByte color (y % 8).toNat old = new := by simpa [hread] using hnew
    have hsame : m₂ = m' := Memory.ext_read hm₂ hm' hs₂ fun i => by
      rw [hread₂, hread, paintByte_paintByte]
      split <;> rfl
    rw [h₂, hsame]
  · exact plot_outOfRange color m' hr

/-- Settles O32: three plots, one of them on the old framebuffer and two on the new one. -/
theorem setPixelNoBleed : Obligations.SetPixelNoBleed := by
  intro s c x y color hs hop hcfg hr
  obtain ⟨hd, hsize, -⟩ := hs.configured c hcfg
  obtain ⟨m, hplot⟩ := hs.plot_exists hcfg color x y
  obtain ⟨hm, hms, -⟩ := plot_ok hs.memory hplot
  obtain ⟨m₂, hoff⟩ := plot_exists .off x y hd (hms.trans hsize)
  have hpixel := fun x' y' => pixel_plot (px := x') (py := y') hs.memory hd.2.2 hplot
  have hpixel₂ := fun x' y' => pixel_plot (px := x') (py := y') hm hd.2.2 hoff
  refine ⟨_, exec_setPixel hop hcfg hplot, ?colour, fun i b => plot_bit_other hs.memory hr hplot,
    ⟨_, exec_setPixel hop hcfg (plot_idempotent hs.memory hd hsize hplot), rfl⟩,
    ⟨_, exec_setPixel hop hcfg hoff, ?off, fun x' y' hr' hne => ?others⟩⟩
  case colour => rw [hpixel x y hr, if_pos rfl]
  case off => rw [hpixel₂ x y hr, if_pos rfl]; rfl
  case others => rw [hpixel₂ x' y' hr', if_neg hne, hpixel x' y' hr', if_neg hne]

/-! ## What the drawing operations leave alone (R68, R72, R87) -/

/-- A write keeps the length, also of a framebuffer that is not in canonical form. -/
theorem Memory.write_size {m m' : Memory} {i : Nat} {v : Byte} (h : m.write i v = some m') : m'.size = m.size := by
  unfold Memory.write at h
  split at h <;> cases h
  rfl

/-- One SET_PIXEL keeps the length. -/
theorem plot_size {c : DisplayConfig} {color : Color} {m m' : Memory} {x y : Int} (h : plot c color m x y = .ok m') :
    m'.size = m.size := by
  unfold plot at h
  split at h
  · cases h; rfl
  · split at h
    · cases h
    · split at h
      · cases h
      · rename_i hwrite
        cases h
        exact Memory.write_size hwrite

/-- A sequence of SET_PIXELs keeps the length. -/
theorem plotAll_size {c : DisplayConfig} {color : Color} {pts : List (Int × Int)} {m m' : Memory}
    (h : plotAll c color m pts = .ok m') : m'.size = m.size := by
  induction pts generalizing m with
  | nil => cases h; rfl
  | cons q rest ih =>
    unfold plotAll at h
    split at h
    · cases h
    · rename_i hplot
      exact (ih h).trans (plot_size hplot)

/-- A drawing operation that completes ends with the drawn framebuffer and `OK`. -/
theorem State.drawn_next {s t : State} {r : Except Nat Memory} (h : s.drawn r = .next t) :
    ∃ m, r = .ok m ∧ t = { s with fb := m }.endWith .ok := by
  cases r with
  | error i => cases h
  | ok m => cases h; exact ⟨m, rfl, rfl⟩

/-- An operation that needs a configured block, and there only draws, changes nothing but the framebuffer's bytes and the
results; an unconfigured block refuses it. -/
theorem drawing_frame {i : Instr} {s t : State} {act : DisplayConfig → Host.Outcome State Fault Refusal}
    (hop : s.op = none) (h : whenIdle i s (whenConfigured s act) = .next t)
    (hact : ∀ c, act c = .next t → ∃ m : Memory, m.size = s.fb.size ∧ t = { s with fb := m }.endWith .ok) :
    t.fb.size = s.fb.size ∧
    ((s.cfg.isSome = true ∧ t = { s with fb := t.fb, results := s.results ++ [.ok] }) ∨
     (s.cfg = none ∧ t = { s with refusals := s.refusals ++ [.unconfigured] })) := by
  rcases Option.eq_none_or_eq_some s.cfg with hcfg | ⟨c, hcfg⟩
  · cases (whenConfigured_refused hop hcfg).symm.trans h
    exact ⟨rfl, .inr ⟨hcfg, rfl⟩⟩
  · rw [whenIdle_idle hop, whenConfigured_some hcfg] at h
    obtain ⟨m, hsize, rfl⟩ := hact c h
    exact ⟨hsize, .inl ⟨by simp [hcfg], State.endWith_idle (s := { s with fb := m }) hop .ok⟩⟩

/-- Settles O33, by the three drawing operations: each keeps the framebuffer's length. -/
theorem drawingMakesNoBusWrite : Obligations.DrawingMakesNoBusWrite := by
  rintro s t i hop (⟨x, y, color, rfl⟩ | ⟨color, rfl⟩ | ⟨string, x, y, color, rfl⟩) h
  case inl =>
    refine drawing_frame hop h fun c hdrawn => ?_
    obtain ⟨m, hplot, rfl⟩ := State.drawn_next hdrawn
    exact ⟨m, plot_size hplot, rfl⟩
  case inr.inl =>
    refine drawing_frame hop h fun c hfill => ?_
    cases hfill
    exact ⟨_, Memory.uniform_size _ _, rfl⟩
  case inr.inr =>
    refine drawing_frame hop h fun c hdrawn => ?_
    obtain ⟨m, hplot, rfl⟩ := State.drawn_next hdrawn
    exact ⟨m, plotAll_size hplot, rfl⟩

end Sys2Proof.Machine
end

section
/-! Proofs of the FILL statements (42_fill.md): the uniform pattern, that it depends on the length only, and that it is what
SET_PIXEL of every coordinate leaves. -/

namespace Sys2Proof.Machine

/-! ## The uniform pattern (R69, R71) -/

/-- FILL on a configured idle block ends with the uniform pattern and `OK`; of the old framebuffer only the length
matters. -/
theorem exec_fill {s : State} {c : DisplayConfig} {n : Nat} (color : Color) (hop : s.op = none) (hcfg : s.cfg = some c)
    (hsize : s.fb.size = n) :
    exec (.fill color) s = .next { s with fb := Memory.uniform n (fillByte color), results := s.results ++ [.ok] } := by
  subst hsize
  have hfill : exec (.fill color) s =
      .next ({ s with fb := Memory.uniform s.fb.size (fillByte color) }.endWith .ok) :=
    (whenIdle_idle hop).trans (whenConfigured_some hcfg)
  rw [hfill, State.endWith_idle (s := { s with fb := Memory.uniform s.fb.size (fillByte color) }) hop]

/-- The byte of the pattern as R69 writes it. -/
theorem fillByte_eq_ite (color : Color) : fillByte color = if color = .on then 0xFF else 0x00 := by
  cases color <;> rfl

/-- Settles O34: the framebuffer FILL leaves is the one of the replicated byte. -/
theorem fillReplacesEveryByte : Obligations.FillReplacesEveryByte := by
  intro s c color hop hcfg
  refine ⟨_, exec_fill color hop hcfg rfl, Memory.uniform_wf _ _, ?_⟩
  rw [← fillByte_eq_ite]
  exact Memory.ofBytes_bytes _

/-- Settles O36: every FILL of the statement finds a framebuffer of the same length. -/
theorem fillIsIdempotent : Obligations.FillIsIdempotent := by
  intro s c color before hop hcfg
  have hlength (col : Color) : (Memory.uniform s.fb.size (fillByte col)).size = s.fb.size := Memory.uniform_size _ _
  exact ⟨_, _, _, _, exec_fill color hop hcfg rfl, exec_fill color hop hcfg (hlength color), rfl,
    exec_fill before hop hcfg rfl, exec_fill color hop hcfg (hlength before), rfl,
    fun m hm => ⟨_, exec_fill (s := { s with fb := m }) color hop hcfg hm, rfl⟩⟩

/-! ## FILL, pixel for pixel and byte for byte (R12, R63, R70) -/

/-- Every bit of the pattern is the colour. -/
theorem fillByte_getLsbD (color : Color) {bit : Nat} (hb : bit < 8) :
    (fillByte color).getLsbD bit = decide (color = .on) := by
  cases color with
  | on => exact BitVec.getLsbD_allOnes.trans (by simp [hb])
  | off => exact BitVec.getLsbD_zero

/-- A pixel is the bit that PAG names (R12). -/
theorem pixel_of_pag {c : DisplayConfig} {x y : Int} {p : PixelPlace} (hp : pag x y c.width c.height = some p)
    (m : Memory) : pixel c m x y = (m.read p.index).map (·.getLsbD p.bit) := by
  simp only [pixel, hp]

/-- Every pixel of the uniform pattern has its colour. -/
theorem pixel_uniform {c : DisplayConfig} {x y : Int} (color : Color) (hd : ValidDims c.width c.height)
    (hr : InRange c x y) :
    pixel c (Memory.uniform (fbLength c.width c.height) (fillByte color)) x y = some (decide (color = .on)) := by
  have hp := pag_eq_some.mpr ⟨hr, rfl⟩
  rw [pixel_of_pag hp, Memory.uniform_read, if_pos (pag_index_lt hd hp), Option.map_some,
    fillByte_getLsbD color (pag_bit_lt hp)]

/-- Framebuffers of a display that show the same picture are equal: every bit of every byte is a pixel (R63). -/
theorem Memory.ext_pixel {c : DisplayConfig} {m m' : Memory} (hd : ValidDims c.width c.height) (hm : m.wf = true)
    (hm' : m'.wf = true) (hs : m.size = fbLength c.width c.height) (hs' : m'.size = fbLength c.width c.height)
    (h : ∀ x y, InRange c x y → pixel c m x y = pixel c m' x y) : m = m' := by
  refine Memory.ext_read hm hm' (hs.trans hs'.symm) fun i => ?_
  by_cases hi : i < fbLength c.width c.height
  · obtain ⟨v, hv⟩ := Option.isSome_iff_exists.mp ((m.read_isSome i).mpr (hs ▸ hi))
    obtain ⟨v', hv'⟩ := Option.isSome_iff_exists.mp ((m'.read_isSome i).mpr (hs' ▸ hi))
    have hbits : v = v' := BitVec.eq_of_getLsbD_eq fun b hb => by
      have hi' : (i : Int) < c.height / 8 * c.width := by have := fbLength_cast hd; omega
      obtain ⟨p, hp, hpi, hpb⟩ := pag_surjective hd hi' (Nat.le_of_lt_succ hb)
      have hpixel := h _ _ (pag_eq_some.mp hp).1
      rw [pixel_of_pag hp, pixel_of_pag hp, hpi, hpb, hv, hv'] at hpixel
      exact Option.some.inj hpixel
    rw [hv, hv', hbits]
  · rw [Memory.read, Memory.read, if_neg (hs ▸ hi), if_neg (hs' ▸ hi)]

/-- SET_PIXEL of every coordinate leaves the uniform pattern, in whatever order and whatever was there before (R70). -/
theorem plotAll_covering {c : DisplayConfig} {color : Color} {pts : List (Int × Int)} {m m' : Memory}
    (hd : ValidDims c.width c.height) (hm : m.wf = true) (hs : m.size = fbLength c.width c.height)
    (hcover : ∀ x y, InRange c x y → (x, y) ∈ pts) (h : plotAll c color m pts = .ok m') :
    m' = Memory.uniform (fbLength c.width c.height) (fillByte color) := by
  obtain ⟨hm', hs'⟩ := plotAll_ok pts hm h
  refine Memory.ext_pixel hd hm' (Memory.uniform_wf _ _) (hs'.trans hs) (Memory.uniform_size _ _) fun x y hr => ?_
  rw [pixel_plotAll hd.2.2 pts hm h x y hr, if_pos (hcover x y hr), pixel_uniform color hd hr]

/-- Settles O35: both leave the uniform pattern. -/
theorem fillEqualsEverySetPixel : Obligations.FillEqualsEverySetPixel := by
  intro s c color hs hop hcfg
  obtain ⟨hd, hsize, -⟩ := hs.configured c hcfg
  refine ⟨_, exec_fill color hop hcfg hsize, fun x y hr => pixel_uniform color hd hr, fun pts hcover => ?_⟩
  obtain ⟨m, hplot⟩ := plotAll_exists color hd pts hs.memory hsize
  obtain ⟨results, hpixels⟩ := execAll_setPixels pts s m hop hcfg hplot
  exact ⟨_, hpixels, plotAll_covering hd hs.memory hsize hcover hplot⟩

end Sys2Proof.Machine
end

section
/-! Proofs of the SHOW statements (43_show.md): the payloads as a tiling of the framebuffer, what a step of SHOW leaves alone,
and a whole SHOW up to the answer that ends it. -/

namespace Sys2Proof.Machine

/-! ## SHOW begins its walk (R73) -/

theorem fbLength_pos {w h : Int} (hd : ValidDims w h) : 0 < fbLength w h := by
  have hpos : 0 < h / 8 * w := Int.mul_pos (by omega) (by omega)
  have := fbLength_cast hd
  omega

/-- A configured block has a framebuffer that is not empty (R11, R56). -/
theorem Inv.fb_size_pos {s : State} {c : DisplayConfig} (hs : Inv s) (hcfg : s.cfg = some c) : 0 < s.fb.size := by
  obtain ⟨hd, hsize, -⟩ := hs.configured c hcfg
  exact hsize ▸ fbLength_pos hd

/-- Settles O37: the framebuffer of a configured block is not empty, so the walk does not end at once. -/
theorem showStartsAtOffsetZero : Obligations.ShowStartsAtOffsetZero := by
  intro s c hs hop hcfg
  calc exec .showFb s
    _ = whenConfigured s fun _ => if s.fb.size = 0 then .next s.complete else .next { s with op := some (.flush 0) } :=
      whenIdle_idle hop
    _ = if s.fb.size = 0 then .next s.complete else .next { s with op := some (.flush 0) } := whenConfigured_some hcfg
    _ = .next { s with op := some (.flush 0) } := if_neg (hs.fb_size_pos hcfg).ne'

/-! ## The payloads (R74) -/

/-- The chunk at offset `o` is the next `CHUNK` bytes from there, as far as there are so many. -/
theorem State.chunkAt_eq (s : State) (o : Nat) : s.chunkAt o = (s.fb.bytes.drop o).take s.build.chunk := by
  have hend : s.fb.bytes.take (s.chunkEnd o) = s.fb.bytes.take (o + s.build.chunk) :=
    List.take_eq_take_iff.mpr (by simp [State.chunkEnd])
  rw [State.chunkAt, Memory.slice, hend, List.drop_take, Nat.add_sub_cancel_left]

/-- Payload `m` is the chunk at offset `m * CHUNK`. -/
theorem State.payloads_eq_chunks (s : State) :
    s.payloads = (List.range s.chunkCount).map fun m => s.chunkAt (m * s.build.chunk) := by
  simp only [State.payloads, State.chunkAt, State.chunkEnd, Nat.add_one_mul]

@[simp] theorem State.payloads_length (s : State) : s.payloads.length = s.chunkCount := by
  simp [State.payloads]

theorem State.payloads_getElem?_eq_some {s : State} {m : Nat} {p : List Byte} :
    s.payloads[m]? = some p ↔ m < s.chunkCount ∧ p = s.chunkAt (m * s.build.chunk) := by
  rw [State.payloads_eq_chunks, List.getElem?_eq_some_iff]
  simp [eq_comm]

/-- The first `n` chunks are the first `n * CHUNK` bytes of `fb`, as far as there are so many. -/
theorem State.flatten_chunks (s : State) (n : Nat) :
    ((List.range n).map fun m => s.chunkAt (m * s.build.chunk)).flatten = s.fb.bytes.take (n * s.build.chunk) := by
  induction n with
  | zero => simp
  | succ n ih =>
    rw [List.range_succ, List.map_append, List.flatten_append, ih, Nat.add_one_mul, List.take_add]
    simp [State.chunkAt_eq]

/-- The chunks reach to the end of the framebuffer. -/
theorem State.fb_size_le_chunks (s : State) : s.fb.size ≤ s.chunkCount * s.build.chunk := by
  have hdiv := Nat.lt_mul_div_succ (s.fb.size + s.build.chunk - 1) s.build.chunk.pos
  have hpos := s.build.chunk.pos
  rw [Nat.mul_add_one] at hdiv
  rw [State.chunkCount, Nat.mul_comm]
  omega

/-- Together the payloads are the framebuffer. -/
theorem State.flatten_payloads (s : State) : s.payloads.flatten = s.fb.bytes := by
  rw [State.payloads_eq_chunks, State.flatten_chunks, List.take_of_length_le]
  exact s.fb.bytes_length.trans_le s.fb_size_le_chunks

/-- Every chunk but the last ends where the next begins, and the last with the framebuffer. -/
theorem State.chunkEnd_of_lt_chunkCount {s : State} {m : Nat} (h : m < s.chunkCount) :
    s.chunkEnd (m * s.build.chunk) = if m + 1 < s.chunkCount then (m + 1) * s.build.chunk else s.fb.size := by
  obtain ⟨-, hnext⟩ := State.chunk_offset h
  rw [Nat.add_one_mul] at hnext ⊢
  rw [State.chunkEnd]
  split <;> omega

/-- Settles O39: payload `m` begins at `m * CHUNK` and ends where the next one begins, or with `fb`. -/
theorem chunksTileTheFramebuffer : Obligations.ChunksTileTheFramebuffer := by
  intro s _
  refine ⟨s.payloads_length, fun m p hp => ?_, s.flatten_payloads⟩
  obtain ⟨hm, rfl⟩ := State.payloads_getElem?_eq_some.mp hp
  obtain ⟨hstart, -⟩ := State.chunk_offset hm
  have hlength := s.chunkAt_length (m * s.build.chunk)
  have hle : s.chunkEnd (m * s.build.chunk) ≤ m * s.build.chunk + s.build.chunk := Nat.min_le_left _ _
  rw [State.chunkEnd_of_lt_chunkCount hm, Nat.add_one_mul] at hlength hle
  rw [State.payloads_length, Nat.add_one_mul]
  refine ⟨rfl, fun hnext => ?full, fun hlast => ?last⟩
  case full => rw [if_pos hnext] at hlength; omega
  case last => rw [if_neg hlast.not_lt] at hlength hle; omega

/-! ## A step of SHOW (R77) -/

/-- A step of SHOW that answers a next state has bytes left to send: a control byte alone is no frame (R44). -/
theorem step_flush_offset {s t : State} {o : Nat} (hn : s.noReset = true) (hop : s.op = some (.flush o))
    (h : step s = .next t) : o < s.fb.size := by
  have hfetch := State.fetch_flush (s := s.takeInput) hop
  obtain ⟨_, hin, -⟩ | ⟨-, hf, -⟩ | ⟨code, i, -, hf, hd, -⟩ := step_cases h
  · simp [State.noReset, hin] at hn
  · rw [hfetch] at hf
    cases hf
  · rw [hfetch] at hf
    cases hf
    obtain ⟨c, hframe, -⟩ | ⟨p, hframe, hne, -⟩ := decode_frame_eq_ok.mp hd
    · exact absurd (List.head_eq_of_cons_eq hframe) (by decide)
    · cases hframe
      by_contra ho
      exact hne (by simp [State.chunkAt_eq, Nat.not_lt.mp ho])

/-- Settles O42: the step is the write of a payload, whatever the answer to it. -/
theorem showLeavesTheBlockAlone : Obligations.ShowLeavesTheBlockAlone := by
  intro s t o hop hn h
  have hsend : sendData (s.chunkAt o) s.takeInput = .next t :=
    (step_flush hn hop (step_flush_offset hn hop h)).symm.trans h
  obtain ⟨hcfg, hfb⟩ := sendData_persistent hsend
  obtain ⟨hrefusals, hdraws⟩ := sendData_marks hsend
  have hbuild := sendData_build hsend
  rw [State.takeInput_fb] at hfb
  exact ⟨hcfg, congrArg _ hfb, fun i => congrArg (·.read i) hfb, hbuild, hrefusals, hdraws⟩

/-! ## SHOW up to the answer to one of its chunks (R73, R78) -/

/-- SHOW in progress after `n` steps of the host in which its first `m` payloads, and no other, were answered `Ok`. -/
def State.showSent (s : State) (a : DeviceAddress) (n m : Nat) (answers : List (Option Answer)) : State :=
  { s.afterHost n with
    op := some (.flush (m * s.build.chunk))
    answers := answers
    history := s.history ++ (s.payloads.take m).map fun p => ⟨a, 0x40 :: p, .ok⟩ }

theorem State.showSent_takeInput (s : State) (a : DeviceAddress) (n m : Nat) (answers : List (Option Answer)) :
    (s.showSent a n m answers).takeInput = s.showSent a (n + 1) m answers := by
  simp only [State.showSent, ← State.afterHost_add]
  rfl

/-- SHOW from its acceptance to the answer `r` to payload `m`, the payloads before it answered `Ok` and any waits before each
answer. -/
theorem exec_showFb_steps {s : State} {c : DisplayConfig} {m : Nat} {r : Answer} {l rest : List (Option Answer)}
    (hs : Inv s) (hop : s.op = none) (hcfg : s.cfg = some c) (hhost : s.noResetWithin (l.length + 1))
    (hm : m < s.chunkCount) (ha : s.answers = l ++ some r :: rest) (hl : l.filterMap id = List.replicate m .ok) :
    ∃ s₁, exec .showFb s = .next s₁ ∧ steps (l.length + 1) s₁ =
      .next ((s.showSent c.addr (l.length + 1) m (some r :: rest)).afterChunk c.addr (m * s.build.chunk) rest r) := by
  obtain ⟨hbefore, hnext⟩ := State.noResetWithin_add hhost
  obtain ⟨hoffset, -⟩ := State.chunk_offset hm
  refine ⟨_, showStartsAtOffsetZero s c hs hop hcfg, ?_⟩
  have hsent := steps_flush c l { s with op := some (.flush 0) } 0 m (some r :: rest) hbefore (by simp) hcfg
    (by rwa [Nat.zero_add]) ha hl
  rw [Nat.zero_add] at hsent
  have hstep : step (s.showSent c.addr l.length m (some r :: rest)) = _ :=
    step_flush_answered (State.noResetWithin_succ hnext).1 rfl hoffset hcfg rfl
  rw [State.showSent_takeInput] at hstep
  exact (steps_add _ _ _ _ hsent).trans (steps_succ hstep)

/-- Settles O41: the answer to payload `m` is the `TransportError`. -/
theorem showStopsAtFailedChunk : Obligations.ShowStopsAtFailedChunk := by
  intro s c m p l rest hs hop hcfg hhost hp ha hl
  obtain ⟨hm, rfl⟩ := State.payloads_getElem?_eq_some.mp hp
  obtain ⟨s₁, hexec, hsteps⟩ := exec_showFb_steps hs hop hcfg hhost hm ha hl
  refine ⟨s₁, _, hexec, hsteps, ?_⟩
  rw [hop]
  rfl

/-! ## A whole SHOW (R41, R75) -/

theorem dataStream_append (l l' : List BusRecord) : dataStream (l ++ l') = dataStream l ++ dataStream l' := by
  induction l with
  | nil => rfl
  | cons r rest ih =>
    simp only [List.cons_append, dataStream, ih]
    split
    · split <;> simp
    · rfl

/-- Data-framed writes carry their payloads (R41). -/
theorem dataStream_frames (a : DeviceAddress) (r : Answer) (ps : List (List Byte)) :
    dataStream (ps.map fun p => ⟨a, 0x40 :: p, r⟩) = ps.flatten := by
  induction ps with
  | nil => rfl
  | cons p rest ih => exact congrArg (p ++ ·) ih

/-- SHOW after its last payload: idle, `OK`, every payload written. -/
theorem State.showSent_last {s : State} {m : Nat} (a : DeviceAddress) (n : Nat) (rest : List (Option Answer))
    (hm : s.chunkCount = m + 1) :
    (s.showSent a n m (some .ok :: rest)).afterChunk a (m * s.build.chunk) rest .ok = { s with
      op := none
      answers := rest
      inbox := s.inbox.drop n
      held := s.held ++ arrivals (s.inbox.take n)
      history := s.history ++ s.payloads.map fun p => ⟨a, 0x40 :: p, .ok⟩
      results := s.results ++ [.ok] } := by
  have hend : ¬s.chunkEnd (m * s.build.chunk) < s.fb.size := by
    rw [State.chunkEnd_of_lt_chunkCount (by omega), if_neg (by omega)]
    exact lt_irrefl _
  have hpayloads : s.payloads = s.payloads.take m ++ [s.chunkAt (m * s.build.chunk)] := by
    conv_lhs => rw [← List.take_append_drop m s.payloads, State.payloads_drop (by omega)]
    simp [hm]
  calc (s.showSent a n m (some .ok :: rest)).afterChunk a (m * s.build.chunk) rest .ok
    _ = ((s.showSent a n m (some .ok :: rest)).answered rest ⟨a, 0x40 :: s.chunkAt (m * s.build.chunk), .ok⟩).complete :=
      if_neg hend
    _ = _ := by
      conv_rhs => rw [hpayloads]
      simp [State.showSent, State.answered, State.endWith, State.afterHost]

/-- Settles O40: the answer to the last payload is the last `Ok`. -/
theorem showSendsExactlyTheFramebuffer : Obligations.ShowSendsExactlyTheFramebuffer := by
  intro s c l rest hs hop hcfg hhost ha hl hlast
  obtain ⟨m, hm⟩ : ∃ m, s.chunkCount = m + 1 := by
    have hcover := s.fb_size_le_chunks
    have hpos := hs.fb_size_pos hcfg
    exact Nat.exists_eq_add_one.mpr (Nat.pos_of_mul_pos_right (hpos.trans_le hcover))
  rw [hm] at hl
  obtain ⟨l', rfl, hl'⟩ := answers_split_last hl hlast
  rw [List.append_assoc] at ha
  rw [List.length_append] at hhost ⊢
  obtain ⟨s₁, hexec, hsteps⟩ := exec_showFb_steps (rest := rest) hs hop hcfg hhost (by omega) ha hl'
  rw [State.showSent_last c.addr _ rest hm] at hsteps
  refine ⟨s₁, _, hexec, hsteps, ?_, ?_⟩
  · rw [← hop]; rfl
  · rw [dataStream_append, dataStream_frames, s.flatten_payloads]

end Sys2Proof.Machine
end

section
/-! Proofs of the DRAW_TEXT statements (44_draw_text.md): the net effect pixel by pixel, that the order of SET_PIXELs of one
colour does not matter, and the blank characters. -/

namespace Sys2Proof.Machine

/-! ## The net effect (R83, R85, R86, R88) -/

/-- DRAW_TEXT on a configured idle block draws the pixels of the text. -/
theorem exec_drawText {s : State} {c : DisplayConfig} (string : List CharCode) (x y : Int) (color : Color)
    (hop : s.op = none) (hcfg : s.cfg = some c) :
    exec (.drawText string x y color) s = s.drawn (plotAll c color s.fb (textPixels s.build string x y)) :=
  (whenIdle_idle hop).trans (whenConfigured_some hcfg)

/-- Drawing on an idle block ends with the drawn framebuffer and `OK`. -/
theorem State.drawn_idle {s : State} (hop : s.op = none) (m : Memory) :
    s.drawn (.ok m) = .next { s with fb := m, results := s.results ++ [.ok] } :=
  congrArg _ (State.endWith_idle (s := { s with fb := m }) hop .ok)

/-- Settles O44: a pixel of the display becomes the colour exactly if it is one of the text's. -/
theorem drawTextNetEffect : Obligations.DrawTextNetEffect := by
  intro s c string x y color hs hop hcfg
  obtain ⟨hd, hsize, -⟩ := hs.configured c hcfg
  obtain ⟨m, hplot⟩ := plotAll_exists color hd (textPixels s.build string x y) hs.memory hsize
  have hpixel := pixel_plotAll hd.2.2 _ hs.memory hplot
  refine ⟨m, ?exec, plotAll_size hplot, fun a ha => plotAll_read_other _ hs.memory hplot ha,
    fun px py hr => ⟨fun hnamed => ?named, fun hnamed => ?unnamed⟩⟩
  case exec => rw [exec_drawText string x y color hop hcfg, hplot, State.drawn_idle hop]
  case named => rw [hpixel px py hr, if_pos ((mem_textPixels _ _ _ _ _ _).mpr hnamed)]
  case unnamed => rw [hpixel px py hr, if_neg ((mem_textPixels _ _ _ _ _ _).not.mpr hnamed)]

/-! ## The order of SET_PIXELs of one colour (R86) -/

/-- SET_PIXELs of one colour leave the same framebuffer in either order: a pixel's value depends only on whether it is one
of them. -/
theorem plotAll_perm {c : DisplayConfig} {color : Color} {pts pts' : List (Int × Int)} {m m₁ m₂ : Memory}
    (hd : ValidDims c.width c.height) (hm : m.wf = true) (hs : m.size = fbLength c.width c.height)
    (hperm : pts.Perm pts') (h₁ : plotAll c color m pts = .ok m₁) (h₂ : plotAll c color m pts' = .ok m₂) :
    m₁ = m₂ := by
  obtain ⟨hm₁, hs₁⟩ := plotAll_ok pts hm h₁
  obtain ⟨hm₂, hs₂⟩ := plotAll_ok pts' hm h₂
  refine Memory.ext_pixel hd hm₁ hm₂ (hs₁.trans hs) (hs₂.trans hs) fun x y hr => ?_
  rw [pixel_plotAll hd.2.2 pts hm h₁ x y hr, pixel_plotAll hd.2.2 pts' hm h₂ x y hr]
  simp only [hperm.mem_iff]

/-- Settles O45: the two sequences plot the same pixels. -/
theorem setPixelOrderIsUnobservable : Obligations.SetPixelOrderIsUnobservable := by
  intro s c color l l' hs hop hcfg hperm
  obtain ⟨hd, hsize, -⟩ := hs.configured c hcfg
  obtain ⟨m, hplot⟩ := plotAll_exists color hd l hs.memory hsize
  obtain ⟨m', hplot'⟩ := plotAll_exists color hd l' hs.memory hsize
  obtain ⟨_, hpixels⟩ := execAll_setPixels l s m hop hcfg hplot
  obtain ⟨_, hpixels'⟩ := execAll_setPixels l' s m' hop hcfg hplot'
  exact ⟨_, _, hpixels, hpixels', plotAll_perm hd hs.memory hsize hperm hplot hplot'⟩

/-! ## Blank characters (R84) -/

/-- A glyph of zeros has no pixels. -/
theorem glyphPixels_zero {g : Glyph} (hg : ∀ i : Fin 8, g.get i = 0x00) (cx y : Int) : glyphPixels g cx y = [] := by
  simp [glyphPixels, hg]

/-- A blank character contributes no pixel, and the next character's cell begins 8 columns on. -/
theorem textPixels_blank {b : Build} {code : CharCode} (hblank : blankChar b code) (rest : List CharCode) (x y : Int) :
    textPixels b (code :: rest) x y = textPixels b rest (x + 8) y := by
  rcases hblank with hnone | ⟨g, hglyph, hzero⟩
  · simp [textPixels, hnone]
  · simp [textPixels, hglyph, glyphPixels_zero hzero]

/-- Settles O46: the blank character's pixels are those of the text after it, none if it stands alone. -/
theorem blankCharacterOnlyAdvancesTheCursor : Obligations.BlankCharacterOnlyAdvancesTheCursor := by
  intro s c code rest x y color hop hcfg hblank
  have hskip (rest' : List CharCode) :
      exec (.drawText (code :: rest') x y color) s = exec (.drawText rest' (x + 8) y color) s := by
    rw [exec_drawText _ x y color hop hcfg, exec_drawText _ (x + 8) y color hop hcfg, textPixels_blank hblank]
  refine ⟨?alone, hskip rest⟩
  case alone =>
    calc exec (.drawText [code] x y color) s
      _ = exec (.drawText [] (x + 8) y color) s := hskip []
      _ = s.drawn (.ok s.fb) := exec_drawText [] (x + 8) y color hop hcfg
      _ = .next { s with results := s.results ++ [.ok] } := State.drawn_idle hop s.fb

end Sys2Proof.Machine
end

section
/-! Proofs of the exception statements (60_exceptions.md): what an instruction reports to the host, the two errors and the
refusals, and that a step in a state of the invariant never stops. -/

namespace Sys2Proof.Machine

/-! ## What an instruction reports (R89, R91, R95, R102) -/

/-- The bus write by which `H` grew from `s` to `t`, if one did, was answered `Ok`. -/
def LastWriteOk (s t : State) : Prop := ∀ r, t.history = s.history ++ [r] → r.answer = .ok

theorem LastWriteOk.of_history_eq {s t : State} (h : t.history = s.history) : LastWriteOk s t :=
  fun r hr => by simp [h] at hr

theorem LastWriteOk.of_answered_ok {s t : State} {a : DeviceAddress} {bytes : List Byte}
    (h : t.history = s.history ++ [⟨a, bytes, .ok⟩]) : LastWriteOk s t := by
  intro r hr
  obtain rfl : (⟨a, bytes, .ok⟩ : BusRecord) = r := by simpa [h] using hr
  rfl

/-- What the instruction `i`, executed in `s`, reports to the one host when it answers `t`: nothing yet, one result (`OK` or one
of the two errors), or the mark of a refused request. -/
inductive Report (i : Instr) (s t : State) : Prop where
  /-- nothing: an operation was started, goes on, waits, or was put back -/
  | silent (hresults : t.results = s.results) (hrefusals : t.refusals = s.refusals) (hwrite : LastWriteOk s t)
  /-- `OK` -/
  | completed (hop : t.op = none) (hresults : t.results = s.results ++ [.ok]) (hrefusals : t.refusals = s.refusals)
      (hwrite : LastWriteOk s t)
  /-- the mark of a refused request (R102) -/
  | refused (why : RefusedRequest) (hend : t = s.refuse why)
  /-- `ConfigError` (R90) -/
  | invalidInit (w ht : Int) (a : DeviceAddress) (hi : i = .init w ht a) (hop : s.op = none) (hcfg : s.cfg = none)
      (hdims : ¬ValidDims w ht) (hend : t = s.endWith (.error .configError))
  /-- `TransportError` (R91); a failed INIT leaves a free framebuffer (R60) -/
  | failedWrite (r : BusRecord) (rest : List (Option Answer)) (m : Memory) (draws : Nat)
      (hanswer : r.answer = .transportError)
      (hend : t = { s.answered rest r with fb := m, draws := draws }.endWith (.error .transportError))

/-- What the write of a command reports. -/
theorem sendCommand_report {i : Instr} {c : Command} {s t : State} (h : sendCommand c s = .next t) : Report i s t := by
  obtain ⟨w, ht, a, k, -, -, ⟨-, rfl⟩ | ⟨_, -, rfl⟩ | ⟨_, -, rfl⟩ | ⟨_, -, -, rfl⟩ | ⟨_, -, -, rfl⟩⟩ :=
    sendCommand_cases h
  · exact .silent rfl rfl (.of_history_eq rfl)
  · exact .silent rfl rfl (.of_history_eq rfl)
  · exact .failedWrite _ _ _ _ rfl rfl
  · exact .silent rfl rfl (.of_answered_ok rfl)
  · exact .completed rfl rfl rfl (.of_answered_ok rfl)

/-- What the write of a payload reports. -/
theorem sendData_report {i : Instr} {p : List Byte} {s t : State} (h : sendData p s = .next t) : Report i s t := by
  obtain ⟨o, c, -, -, -, -, ⟨-, rfl⟩ | ⟨_, -, rfl⟩ | ⟨rest, -, rfl⟩ | ⟨_, -, -, rfl⟩ | ⟨_, -, -, rfl⟩⟩ :=
    sendData_cases h
  · exact .silent rfl rfl (.of_history_eq rfl)
  · exact .silent rfl rfl (.of_history_eq rfl)
  · exact .failedWrite _ rest s.fb s.draws rfl rfl
  · exact .silent rfl rfl (.of_answered_ok rfl)
  · exact .completed rfl rfl rfl (.of_answered_ok rfl)

/-- Every instruction reports in one of the five ways. -/
theorem exec_report {i : Instr} {s t : State} (h : exec i s = .next t) : Report i s t := by
  rcases exec_cases h with ⟨_, -, rfl⟩ | ⟨-, why, rfl⟩ | ⟨hop, w, ht, a, hi, hcfg, hd, rfl⟩ |
      ⟨-, _, _, _, -, -, -, -, rfl⟩ | ⟨-, _, _, _, _, _, -, -, -, rfl⟩ | ⟨-, _, _, -, -, rfl⟩ |
      ⟨-, _, _, _, _, _, _, -, -, -, rfl⟩ | ⟨-, -, -, ⟨-, rfl⟩ | ⟨-, rfl⟩⟩ |
      ⟨c, -, hsend⟩ | ⟨p, -, hsend⟩
  · exact .silent (State.hold_results s i) (State.hold_refusals s i) (.of_history_eq (State.hold_history s i))
  · exact .refused why rfl
  · exact .invalidInit w ht a hi hop hcfg hd rfl
  · exact .silent rfl rfl (.of_history_eq rfl)
  · exact .completed rfl rfl rfl (.of_history_eq rfl)
  · exact .completed rfl rfl rfl (.of_history_eq rfl)
  · exact .completed rfl rfl rfl (.of_history_eq rfl)
  · exact .completed rfl rfl rfl (.of_history_eq rfl)
  · exact .silent rfl rfl (.of_history_eq rfl)
  · exact sendCommand_report hsend
  · exact sendData_report hsend

/-- Settles O16: a step reports what its instruction reports, and every result is the end of the operation. -/
theorem oneResultEndsTheOperation : Obligations.OneResultEndsTheOperation := by
  intro s t hn h
  rcases step_cases h with ⟨rest, hin, -⟩ | ⟨-, -, rfl⟩ | ⟨code, i, -, -, -, hexec⟩
  · simp [State.noReset, hin] at hn
  · exact .inl rfl
  · cases exec_report hexec with
    | silent hresults => exact .inl hresults
    | completed hop hresults => exact .inr ⟨_, hresults, hop⟩
    | refused why hend => subst hend; exact .inl rfl
    | invalidInit w ht a _ _ _ _ hend => subst hend; exact .inr ⟨_, rfl, rfl⟩
    | failedWrite r rest m draws _ hend => subst hend; exact .inr ⟨_, rfl, rfl⟩

/-- Settles O49: every report but a refusal leaves the marks as they are. -/
theorem refusedRequestChangesNothing : Obligations.RefusedRequestChangesNothing := by
  intro i s t why h hmark
  cases exec_report h with
  | silent _ hrefusals | completed _ _ hrefusals => simp [hrefusals] at hmark
  | refused why' hend =>
    subst hend
    rw [← hmark]
    rfl
  | invalidInit _ _ _ _ _ _ _ hend | failedWrite _ _ _ _ _ hend => simp [hend] at hmark

/-! ## The two errors (R90, R91, R95, R99) -/

/-- An instruction that ends with an error is an INIT with invalid dimensions on an unconfigured idle block, or its bus write
failed. -/
theorem exec_error {i : Instr} {s t : State} {e : BlockError} (h : exec i s = .next t)
    (herror : t.results = s.results ++ [.error e]) :
    (e = .configError ∧ s.op = none ∧ s.cfg = none ∧ (∃ w ht a, i = .init w ht a ∧ ¬ValidDims w ht) ∧
      t = s.endWith (.error .configError)) ∨
    (e = .transportError ∧ ∃ r rest m draws, r.answer = .transportError ∧
      t = { s.answered rest r with fb := m, draws := draws }.endWith (.error .transportError)) := by
  cases exec_report h with
  | silent hresults | completed _ hresults => simp [hresults] at herror
  | refused why hend => simp [hend] at herror
  | invalidInit w ht a hi hop hcfg hdims hend =>
    exact .inl ⟨by simpa [hend, eq_comm] using herror, hop, hcfg, ⟨w, ht, a, hi, hdims⟩, hend⟩
  | failedWrite r rest m draws hanswer hend =>
    exact .inr ⟨by simpa [hend, eq_comm] using herror, r, rest, m, draws, hanswer, hend⟩

/-- The dimensions INIT rejects, as R90 writes them. -/
theorem not_validDims_iff {w ht : Int} : ¬ValidDims w ht ↔ ht ≤ 0 ∨ ht % 8 ≠ 0 ∨ w ≤ 0 := by
  omega

/-- Settles O18: INIT tests the dimensions first on an unconfigured block, and the other error is `TransportError`. -/
theorem configErrorExactlyOnInvalidInit : Obligations.ConfigErrorExactlyOnInvalidInit := by
  refine ⟨fun s w ht a hop hcfg hdims => ?raised, fun i s t h herror => ?only⟩
  case raised =>
    rw [exec_init_invalid a hop hcfg (not_validDims_iff.mpr hdims), State.endWith_idle hop]
  case only =>
    rcases exec_error h herror with ⟨-, hop, hcfg, ⟨w, ht, a, hi, hdims⟩, hend⟩ | ⟨he, -⟩
    · exact ⟨w, ht, a, hi, hcfg, not_validDims_iff.mp hdims, hend.trans (State.endWith_idle hop _)⟩
    · cases he

/-- Settles O27: of the reports only that of a failed write has one in `H`. -/
theorem transportErrorExactlyOnFailedWrite : Obligations.TransportErrorExactlyOnFailedWrite := by
  intro i s t h
  have hfailed : t.results = s.results ++ [.error .transportError] →
      (∃ r, t.history = s.history ++ [r] ∧ r.answer = .transportError) ∧ t.op = none ∧ t.cfg = s.cfg := by
    intro herror
    rcases exec_error h herror with ⟨he, -⟩ | ⟨-, r, rest, m, draws, hanswer, rfl⟩
    · cases he
    · exact ⟨⟨r, rfl, hanswer⟩, rfl, rfl⟩
  refine ⟨⟨fun herror => (hfailed herror).1, fun ⟨r, hhist, hanswer⟩ => ?write⟩, fun herror => (hfailed herror).2⟩
  case write =>
    cases exec_report h with
    | silent _ _ hwrite | completed _ _ _ hwrite =>
      rw [hwrite r hhist] at hanswer
      cases hanswer
    | refused _ hend | invalidInit _ _ _ _ _ _ _ hend => simp [hend] at hhist
    | failedWrite _ _ _ _ _ hend => rw [hend]; rfl

/-- At the step of its answer a failed write of INIT or SHOW is the operation's result, and no mark is left (R91, R95). -/
theorem step_failed_write {s : State} {rest : List (Option Answer)} (hs : Inv s) (hbusy : s.op.isSome = true)
    (hn : s.noReset = true) (ha : s.answers = some .transportError :: rest) :
    ∃ t, step s = .next t ∧ t.results = s.results ++ [.error .transportError] ∧ t.op = none ∧ t.cfg = s.cfg ∧
      t.refusals = s.refusals ∧ t.answers = rest := by
  match hop : s.op with
  | none => simp [hop] at hbusy
  | some (.init w ht a k) =>
    obtain ⟨-, -, -, -, hk⟩ := hs.initializing w ht a k hop
    exact ⟨_, step_init_answered hn hop (Vector.getElem?_eq_getElem hk) ha, rfl, rfl, rfl, rfl, rfl⟩
  | some (.flush o) =>
    obtain ⟨hsome, ho, -⟩ := hs.flushing o hop
    obtain ⟨c, hcfg⟩ := Option.isSome_iff_exists.mp hsome
    exact ⟨_, step_flush_answered hn hop ho hcfg ha, rfl, rfl, rfl, rfl, rfl⟩

/-- Settles O28, clause by clause: the two ways an instruction ends with an error, and each error reaching the host. -/
theorem errorsGoToTheOneHost : Obligations.ErrorsGoToTheOneHost := by
  refine ⟨fun i s t e h herror => ?frame, fun s w ht a hop hcfg hdims => ⟨_, exec_init_invalid a hop hcfg hdims, rfl⟩,
    fun s rest hs hbusy hn ha => step_failed_write hs hbusy hn ha⟩
  case frame => obtain ⟨rfl, -, -, -, rfl⟩ | ⟨rfl, r, rest, m, draws, -, rfl⟩ := exec_error h herror <;> rfl

/-! ## Refusals of an unconfigured block (R102) -/

/-- Settles O47: each of them needs a configured block. -/
theorem unconfiguredOperationsAreRefused : Obligations.UnconfiguredOperationsAreRefused :=
  fun _ _ _ _ _ hop hcfg => ⟨whenConfigured_refused hop hcfg, whenConfigured_refused hop hcfg,
    whenConfigured_refused hop hcfg, whenConfigured_refused hop hcfg⟩

/-! ## A step never stops (R30, R93, R95) -/

/-- On an idle block an operation that needs a configured block does not stop if its action on a configured one does not. -/
theorem whenConfigured_next {i : Instr} {s : State} {act : DisplayConfig → Host.Outcome State Fault Refusal}
    (hop : s.op = none) (hact : ∀ c, s.cfg = some c → ∃ t, act c = .next t) :
    ∃ t, whenIdle i s (whenConfigured s act) = .next t := by
  rcases Option.eq_none_or_eq_some s.cfg with hcfg | ⟨c, hcfg⟩
  · exact ⟨_, whenConfigured_refused hop hcfg⟩
  · rw [whenIdle_idle hop, whenConfigured_some hcfg]
    exact hact c hcfg

/-- In a state of the invariant an idle block executes every request of the host without a stop: the pixels it draws lie inside
the framebuffer (R30). -/
theorem exec_request_next {i : Instr} {s : State} {b : Build} {r : Request} (hs : Inv s) (hop : s.op = none)
    (h : encode b i = .request r) : ∃ t, exec i s = .next t := by
  cases i with
  | init w ht a =>
    rw [exec_init_idle w ht a hop]
    split_ifs <;> exact ⟨_, rfl⟩
  | setPixel x y color =>
    refine whenConfigured_next hop fun c hcfg => ?_
    obtain ⟨m, hplot⟩ := hs.plot_exists hcfg color x y
    exact ⟨_, by rw [hplot, State.drawn_ok]⟩
  | fill color => exact whenConfigured_next hop fun c hcfg => ⟨_, rfl⟩
  | showFb => exact whenConfigured_next hop fun c hcfg => by split_ifs <;> exact ⟨_, rfl⟩
  | drawText string x y color =>
    refine whenConfigured_next hop fun c hcfg => ?_
    obtain ⟨hd, hsize, -⟩ := hs.configured c hcfg
    obtain ⟨m, hplot⟩ := plotAll_exists color hd (textPixels s.build string x y) hs.memory hsize
    exact ⟨_, by rw [hplot, State.drawn_ok]⟩
  | reserved101 | reserved110 | reserved111 => exact ⟨_, whenIdle_idle hop⟩
  | _ => cases h

/-- What a request decodes to is a request again. -/
theorem encode_decodeRequest (b : Build) (r : Request) : ∃ r', encode b (decodeRequest b r) = .request r' := by
  unfold decodeRequest
  split <;> exact ⟨_, rfl⟩

/-- A transport that does not answer, now or ever, leaves the write waiting (R112). -/
theorem State.busWrite_unanswered {s : State} (a : DeviceAddress) (bytes : List Byte) (h : s.answers.head?.join = none) :
    s.busWrite a bytes = (none, { s with answers := s.answers.tail }) := by
  obtain ⟨ha, hbus⟩ | ⟨rest, ha, hbus⟩ | ⟨r, rest, ha, -⟩ := s.busWrite_cases a bytes
  · rw [hbus, ha, List.tail_nil, ← ha]
  · rw [hbus, ha, List.tail_cons]
  · simp [ha] at h

/-- The transport's next answer is its move: it has not answered, or has answered. -/
theorem State.unanswered_or_answered (s : State) :
    s.answers.head?.join = none ∨ ∃ r rest, s.answers = some r :: rest := by
  rcases s.answers with _ | ⟨_ | r, rest⟩
  · exact .inl rfl
  · exact .inl rfl
  · exact .inr ⟨r, rest, rfl⟩

/-- The entry that is due, unanswered: INIT waits (R112). -/
theorem sendCommand_unanswered {s : State} {w h : Int} {a : DeviceAddress} {k : Nat} {c : Command}
    (hop : s.op = some (.init w h a k)) (hc : s.build.initSeq[k]? = some c) (ha : s.answers.head?.join = none) :
    sendCommand c s = .next { s with answers := s.answers.tail } := by
  simp only [sendCommand, hop, State.commandDue, hc, if_true, State.busWrite_unanswered _ _ ha]

/-- The chunk that is due, unanswered: SHOW waits (R112). -/
theorem sendData_unanswered {s : State} {o : Nat} {c : DisplayConfig} (hop : s.op = some (.flush o)) (ho : o < s.fb.size)
    (hc : s.cfg = some c) (ha : s.answers.head?.join = none) :
    sendData (s.chunkAt o) s = .next { s with answers := s.answers.tail } := by
  simp only [sendData, hop, hc, ho, and_self, if_true, State.busWrite_unanswered _ _ ha]

/-- The entry that is due never stops the block, whatever the transport does. -/
theorem sendCommand_next {s : State} {w h : Int} {a : DeviceAddress} {k : Nat} {c : Command}
    (hop : s.op = some (.init w h a k)) (hc : s.build.initSeq[k]? = some c) : ∃ t, sendCommand c s = .next t := by
  obtain ha | ⟨r, rest, ha⟩ := s.unanswered_or_answered
  · exact ⟨_, sendCommand_unanswered hop hc ha⟩
  · exact ⟨_, sendCommand_answered hop hc ha⟩

/-- The chunk that is due never stops the block, whatever the transport does. -/
theorem sendData_next {s : State} {o : Nat} {c : DisplayConfig} (hop : s.op = some (.flush o)) (ho : o < s.fb.size)
    (hc : s.cfg = some c) : ∃ t, sendData (s.chunkAt o) s = .next t := by
  obtain ha | ⟨r, rest, ha⟩ := s.unanswered_or_answered
  · exact ⟨_, sendData_unanswered hop ho hc ha⟩
  · exact ⟨_, sendData_answered hop ho hc ha⟩

/-- The host applies reset at the next step exactly if that event stands first. -/
theorem State.noReset_eq_false {s : State} : s.noReset = false ↔ ∃ rest, s.inbox = .reset :: rest := by
  unfold State.noReset
  split <;> simp_all

/-- In a state of the invariant a step of an idle block does not stop. -/
theorem step_idle_next {s : State} (hs : Inv s) (hop : s.op = none) (hn : s.noReset = true) : ∃ t, step s = .next t := by
  match hheld : s.takeInput.held with
  | [] => exact ⟨_, step_no_request hop hn hheld⟩
  | r :: waiting =>
    obtain ⟨r', hrequest⟩ := encode_decodeRequest s.build r
    rw [step_request hop hn hheld rfl]
    exact exec_request_next hs.congr hop hrequest

/-- Settles O4, by what the step has to do: a reset, a request, or the frame of INIT or SHOW that is due. -/
theorem invariantStepNeverStops : Obligations.InvariantStepNeverStops := by
  intro s hs
  cases hn : s.noReset with
  | false =>
    obtain ⟨rest, hin⟩ := State.noReset_eq_false.mp hn
    exact ⟨_, step_reset hin⟩
  | true =>
    match hop : s.op with
    | none => exact step_idle_next hs hop hn
    | some (.init w ht a k) =>
      obtain ⟨-, -, -, -, hk⟩ := hs.initializing w ht a k hop
      have hc := Vector.getElem?_eq_getElem (xs := s.build.initSeq) hk
      rw [step_init hn hop hc]
      exact sendCommand_next (s := s.takeInput) hop hc
    | some (.flush o) =>
      obtain ⟨hsome, ho, -⟩ := hs.flushing o hop
      obtain ⟨c, hcfg⟩ := Option.isSome_iff_exists.mp hsome
      rw [step_flush hn hop ho]
      exact sendData_next (s := s.takeInput) hop ho hcfg

end Sys2Proof.Machine
end

section
/-! Proofs of the reset and hazard statements (70_reset_and_hazards.md): requests held at the interface, a transport that never
answers, and reset. -/

namespace Sys2Proof.Machine

/-! ## Requests held at the interface (R108) -/

/-- An operation put back stands before the requests held (log 7). -/
theorem State.hold_request {s : State} {i : Instr} {r : Request} (h : encode s.build i = .request r) :
    s.hold i = { s with held := r :: s.held } := by
  simp [State.hold, h]

/-- A frame is no request: nothing of it is put back. -/
theorem State.hold_frame {s : State} {i : Instr} {bytes : List Byte} (h : encode s.build i = .frame bytes) :
    s.hold i = s := by
  simp [State.hold, h]

/-- A busy block puts back every operation of the host. -/
theorem exec_request_busy {i : Instr} {s : State} {o : Operation} {b : Build} {r : Request} (hop : s.op = some o)
    (h : encode b i = .request r) : exec i s = .next (s.hold i) := by
  cases i with
  | init | setPixel | fill | showFb | drawText | reserved101 | reserved110 | reserved111 => exact whenIdle_busy hop
  | _ => cases h

/-- Settles O12: the operation put back is encoded as the request. -/
theorem busyBlockHoldsTheRequest : Obligations.BusyBlockHoldsTheRequest := by
  intro i s o r hop h
  rw [exec_request_busy hop h, State.hold_request h]

/-- An instruction that an idle block executes puts nothing back. -/
theorem exec_held_of_idle {i : Instr} {s t : State} (hop : s.op = none) (h : exec i s = .next t) : t.held = s.held := by
  obtain ⟨-, hheld | ⟨o, hbusy, -⟩⟩ := exec_host h
  · exact hheld
  · simp [hop] at hbusy

/-- A frame puts nothing back. -/
theorem exec_held_of_frame {i : Instr} {s t : State} {bytes : List Byte} (henc : encode s.build i = .frame bytes)
    (h : exec i s = .next t) : t.held = s.held := by
  obtain ⟨-, hheld | ⟨o, -, rfl⟩⟩ := exec_host h
  · exact hheld
  · rw [State.hold_frame henc]

/-- A block with an operation in progress fetches frames only. -/
theorem State.fetch_busy {s : State} {code : Code} (hop : s.op.isSome = true) (h : s.fetch = some code) :
    ∃ bytes, code = .frame bytes := by
  match hs : s.op with
  | none => simp [hs] at hop
  | some (.init w ht a k) =>
    obtain ⟨c, -, rfl⟩ : ∃ c, s.commandDue = some c ∧ .frame c.frame = code := by simpa [State.fetch, hs] using h
    exact ⟨_, rfl⟩
  | some (.flush o) =>
    rw [State.fetch_flush hs] at h
    cases h
    exact ⟨_, rfl⟩

/-- A step of a busy block accepts none of the requests held. -/
theorem step_held_busy {s t : State} (hn : s.noReset = true) (hop : s.op.isSome = true) (h : step s = .next t) :
    t.held = s.takeInput.held := by
  rcases step_cases h with ⟨rest, hin, -⟩ | ⟨-, -, rfl⟩ | ⟨code, i, -, hf, hd, hexec⟩
  · simp [State.noReset, hin] at hn
  · rfl
  · obtain ⟨bytes, rfl⟩ := State.fetch_busy (s := s.takeInput) hop hf
    obtain ⟨-, henc⟩ := decodedFrameEncodesBack.1 s.build bytes i hd
    rw [State.accept_busy (s := s.takeInput) hop] at hexec
    exact exec_held_of_frame (s := s.takeInput) henc hexec

/-- A step of an idle block accepts the oldest of the requests held, if there is one. -/
theorem step_held_idle {s t : State} (hn : s.noReset = true) (hop : s.op = none) (h : step s = .next t) :
    t.held = s.takeInput.held.tail := by
  rcases step_cases h with ⟨rest, hin, -⟩ | ⟨-, hf, rfl⟩ | ⟨code, i, -, -, -, hexec⟩
  · simp [State.noReset, hin] at hn
  · have hnone : s.takeInput.held = [] := by simpa [State.fetch_idle (s := s.takeInput) hop] using hf
    rw [hnone, List.tail_nil]
  · rw [State.accept_idle (s := s.takeInput) hop] at hexec
    exact exec_held_of_idle (s := { s.takeInput with held := s.takeInput.held.tail }) hop hexec

/-- Settles O11, by whether the block is busy. -/
theorem requestsAreHeldWhileBusy : Obligations.RequestsAreHeldWhileBusy :=
  fun _ _ hn h => ⟨step_inbox h, fun hop => step_held_busy hn hop h, fun hop => step_held_idle hn hop h⟩

/-! ## A transport that does not answer (R112) -/

/-- A step whose bus write is not answered, now or ever, takes the host's event and waits. -/
theorem step_unanswered {s : State} (hs : Inv s) (hop : s.op.isSome = true) (hn : s.noReset = true)
    (ha : s.answers.head?.join = none) : step s = .next { s.takeInput with answers := s.answers.tail } := by
  match hbusy : s.op with
  | none => simp [hbusy] at hop
  | some (.init w ht a k) =>
    obtain ⟨-, -, -, -, hk⟩ := hs.initializing w ht a k hbusy
    have hc := Vector.getElem?_eq_getElem (xs := s.build.initSeq) hk
    rw [step_init hn hbusy hc]
    exact sendCommand_unanswered (s := s.takeInput) hbusy hc ha
  | some (.flush o) =>
    obtain ⟨hsome, ho, -⟩ := hs.flushing o hbusy
    obtain ⟨c, hcfg⟩ := Option.isSome_iff_exists.mp hsome
    rw [step_flush hn hbusy ho]
    exact sendData_unanswered (s := s.takeInput) hbusy ho hcfg ha

/-- Settles O17: an empty list of answers stays empty. -/
theorem silentTransportWaits : Obligations.SilentTransportWaits := by
  intro s hs hop ha hn
  rw [step_unanswered hs hop hn (by simp [ha])]
  simp [State.takeInput, State.afterHost, ha]

/-! ## Reset (R104, R105) -/

/-- Settles O5: the step is `applyReset`. -/
theorem resetAbandonsOperation : Obligations.ResetAbandonsOperation :=
  fun s rest hin => ⟨s.applyReset rest, step_reset hin, rfl, rfl, rfl, rfl, rfl, rfl, rfl, rfl, rfl⟩

/-- From a state of the invariant `n` steps do not stop, whatever the host and the transport do, and use up `n` events. -/
theorem steps_next {s : State} (n : Nat) (hs : Inv s) : ∃ u, steps n s = .next u ∧ u.inbox = s.inbox.drop n := by
  induction n generalizing s with
  | zero => exact ⟨s, rfl, rfl⟩
  | succ n ih =>
    obtain ⟨t, hstep⟩ := invariantStepNeverStops s hs
    obtain ⟨u, hrun, hinbox⟩ := ih (stepKeepsInvariant s t hs hstep)
    refine ⟨u, (steps_succ hstep).trans hrun, ?_⟩
    rw [hinbox, step_inbox hstep, List.drop_drop, Nat.add_comm]

/-- Settles O52: once the events before it are used up, the reset stands first. -/
theorem resetFreesTheBlock : Obligations.ResetFreesTheBlock := by
  intro s before rest hs hin
  obtain ⟨u, hrun, hinbox⟩ := steps_next before.length hs
  have hreset : u.inbox = .reset :: rest := by rw [hinbox, hin, List.drop_left]
  exact ⟨u, u.applyReset rest, hrun, step_reset hreset, rfl, rfl, rfl, rfl, rfl⟩

end Sys2Proof.Machine
end
